-- ==== Sys2Proof/Word.lean ====
section
/-! DEFINITION. The word types of the block (spec/00_scope.md R8, R9; spec/30_encoding.md R60, R61, R62). -/

namespace Sys2Proof

/-- A byte, value 0 to 255 (R9). -/
abbrev Byte := BitVec 8

/-- A nibble, value 0 to 15 (R9): a message or a syndrome. -/
abbrev Nibble := BitVec 4

/-- A 32-bit unsigned operand field: a length, a row or column count, an index (R8 `IDX_W`, R61; log 17). -/
abbrev Idx := BitVec 32

/-- A handle: a name of 32 bits, value 0 is `NULL` (R8 `HND_W`, R27; log 17). -/
abbrev Handle := BitVec 32

/-- A command word `CMD`, bit 0 least significant (R60). -/
abbrev CmdWord := BitVec 128

/-- A response word `RSP` (R62). -/
abbrev RspWord := BitVec 64

/-- `NULL`, the handle that is never live (R27). -/
abbrev nullHandle : Handle := 0

end Sys2Proof
end

