-- ==== Sys2Proof/Config.lean ====
section
/-! DEFINITION. What is fixed for the block (spec/00_scope.md R8) and the one free value, the allocation draw (R27). -/

namespace Sys2Proof

/-- The two kinds of object an allocation draw is made for (spec/10_state.md R27: `kind` in `{vector, matrix}`). -/
inductive AllocKind where
  | vector
  | matrix
  deriving DecidableEq, Repr

/-- `2 ^ IDX_W`: the first bit count no vector has (R25, R55, R90, decision D17). -/
abbrev Config.bitLimit : Nat := 2 ^ 32

/-- `TO_DATA_STRICT` (R8, R95; 90_conflicts.md C1): `BM_TO_DATA` refuses shapes other than 1×N, 1 ≤ N ≤ 8. -/
def Config.toDataStrict : Bool := true

/-- What a storage byte that no cell lists reads as: storage is zero-filled at creation (R25, R34). -/
def Config.unlistedByte : Byte := 0

/-- FREE VALUE (log 4, DESIGN CHOICE): the environment's answer to the `n`-th draw of a run for an object of `kind` with
`bits` bits, where State lists no answer: `none` is `fail`, `some h` a handle. It has no body, so no proof can see a value
of it (R27: "Nothing else constrains the draw"). -/
opaque Config.allocDraw (kind : AllocKind) (bits n : Nat) : Option Handle

end Sys2Proof
end

