-- ==== Sys2Proof/Syntax.lean ====
section
/-! DEFINITION. The fifteen commands (spec/00_scope.md R7, spec/30_encoding.md R63) and the raw command word's fields (R60). -/

namespace Sys2Proof

/-- The five fields of a command word (R60), before anything is checked. -/
structure Command where
  op  : BitVec 8
  rsv : BitVec 24
  a   : BitVec 32
  b   : BitVec 32
  c   : BitVec 32
  deriving DecidableEq, Repr

/-- A command with the operands it uses, in field order (R63). A byte operand is bits 7:0 of its field (R61 c); a field
the command does not use is no part of it (R61, log 9). -/
inductive Instr where
  | bvCreate   (length : Idx)                            -- 0x01
  | bvDelete   (h : Handle)                              -- 0x02
  | bvGetBit   (h : Handle) (i : Idx)                    -- 0x03
  | bvSetBit   (h : Handle) (i : Idx)                    -- 0x04
  | bvGetByte  (h : Handle) (j : Idx)                    -- 0x05
  | bvSetByte  (h : Handle) (j : Idx) (value : Byte)     -- 0x06
  | bmCreate   (rows cols : Idx)                         -- 0x07
  | bmDelete   (h : Handle)                              -- 0x08
  | bmGetBit   (h : Handle) (r c : Idx)                  -- 0x09
  | bmSetBit   (h : Handle) (r c : Idx)                  -- 0x0A
  | bmFromData (byte : Byte) (length : Idx)              -- 0x0B
  | bmToData   (h : Handle)                              -- 0x0C
  | bmMultiply (hA hB : Handle)                          -- 0x0D
  | hamEncode  (hG : Handle) (msg : Byte)                -- 0x0E
  | hamDecode  (hH : Handle) (code : Byte)               -- 0x0F
  deriving DecidableEq, Repr

/-- The six Bit Vector commands (spec/40_bit_vector.md). -/
def Instr.isVectorCommand : Instr → Bool
  | .bvCreate .. | .bvDelete .. | .bvGetBit .. | .bvSetBit .. | .bvGetByte .. | .bvSetByte .. => true
  | .bmCreate .. | .bmDelete .. | .bmGetBit .. | .bmSetBit .. | .bmFromData .. | .bmToData .. | .bmMultiply ..
  | .hamEncode .. | .hamDecode .. => false

/-- The seven matrix commands (spec/41_bit_matrix.md, spec/42_gf2_multiply.md). -/
def Instr.isMatrixCommand : Instr → Bool
  | .bmCreate .. | .bmDelete .. | .bmGetBit .. | .bmSetBit .. | .bmFromData .. | .bmToData .. | .bmMultiply .. => true
  | .bvCreate .. | .bvDelete .. | .bvGetBit .. | .bvSetBit .. | .bvGetByte .. | .bvSetByte ..
  | .hamEncode .. | .hamDecode .. => false

end Sys2Proof
end

