-- ==== Sys2Proof/WellFormed.lean ====
section
/-! DEFINITION. Which command words are legal (spec/30_encoding.md R64). The operands of an `Instr` are typed by the exact
width of their fields (R60, R61), so every `Instr` is well formed; what can be ill formed is the raw `Command`. -/

namespace Sys2Proof

/-- `rsv` must be 0 (R60). -/
abbrev Command.reservedClear (c : Command) : Bool := c.rsv == 0

/-- `op` selects a command: `0x01` to `0x0F` (R63, R64). -/
abbrev Command.opcodeAssigned (c : Command) : Bool := decide (0x01 ≤ c.op.toNat) && decide (c.op.toNat ≤ 0x0F)

/-- A command word that selects a command (R64). No operand value is illegal. -/
def Command.wellFormed (c : Command) : Bool := c.reservedClear && c.opcodeAssigned

end Sys2Proof
end

