-- ==== Sys2Proof/Decode.lean ====
section
/-! DEFINITION. From a 128-bit command word to a command, and back (spec/30_encoding.md R60 to R65). -/

namespace Sys2Proof

/-- The fields of a command word: `op` 7:0, `rsv` 31:8, `a` 63:32, `b` 95:64, `c` 127:96 (R60). -/
def Command.ofWord (w : CmdWord) : Command :=
  { op := w.extractLsb' 0 8, rsv := w.extractLsb' 8 24, a := w.extractLsb' 32 32,
    b := w.extractLsb' 64 32, c := w.extractLsb' 96 32 }

/-- The command word with these fields (R60). -/
def Command.toWord (k : Command) : CmdWord := k.c ++ k.b ++ k.a ++ k.rsv ++ k.op

/-- A byte operand: bits 7:0 of its field, bits 31:8 ignored (R61 c). -/
def lowByte (x : BitVec 32) : Byte := x.extractLsb' 0 8

/-- Why a command word is illegal (R64). -/
inductive Reject where
  /-- `rsv != 0` -/
  | reservedBits
  /-- `op = 0x00` or `op` in `0x10..0xFF` -/
  | unassignedOpcode
  deriving DecidableEq, Repr

/-- Which command the fields select (R63, R64). -/
def decodeCommand (k : Command) : Except Reject Instr :=
  if k.rsv ≠ 0 then .error .reservedBits
  else match k.op.toNat with
    | 0x01 => .ok (.bvCreate k.a)
    | 0x02 => .ok (.bvDelete k.a)
    | 0x03 => .ok (.bvGetBit k.a k.b)
    | 0x04 => .ok (.bvSetBit k.a k.b)
    | 0x05 => .ok (.bvGetByte k.a k.b)
    | 0x06 => .ok (.bvSetByte k.a k.b (lowByte k.c))
    | 0x07 => .ok (.bmCreate k.a k.b)
    | 0x08 => .ok (.bmDelete k.a)
    | 0x09 => .ok (.bmGetBit k.a k.b k.c)
    | 0x0A => .ok (.bmSetBit k.a k.b k.c)
    | 0x0B => .ok (.bmFromData (lowByte k.a) k.b)
    | 0x0C => .ok (.bmToData k.a)
    | 0x0D => .ok (.bmMultiply k.a k.b)
    | 0x0E => .ok (.hamEncode k.a (lowByte k.b))
    | 0x0F => .ok (.hamDecode k.a (lowByte k.b))
    | _ => .error .unassignedOpcode

/-- The decoder: one 128-bit word in, a command or a named rejection out (R65). -/
def decode (w : CmdWord) : Except Reject Instr := decodeCommand (Command.ofWord w)

/-- A byte operand in its field, bits 31:8 zero. -/
def byteField (x : Byte) : BitVec 32 := x.zeroExtend 32

/-- The fields of a command, every ignored bit 0 (R60, R63; log 9). -/
def Instr.toCommand : Instr → Command
  | .bvCreate length     => ⟨0x01, 0, length, 0, 0⟩
  | .bvDelete h          => ⟨0x02, 0, h, 0, 0⟩
  | .bvGetBit h i        => ⟨0x03, 0, h, i, 0⟩
  | .bvSetBit h i        => ⟨0x04, 0, h, i, 0⟩
  | .bvGetByte h j       => ⟨0x05, 0, h, j, 0⟩
  | .bvSetByte h j value => ⟨0x06, 0, h, j, byteField value⟩
  | .bmCreate rows cols  => ⟨0x07, 0, rows, cols, 0⟩
  | .bmDelete h          => ⟨0x08, 0, h, 0, 0⟩
  | .bmGetBit h r c      => ⟨0x09, 0, h, r, c⟩
  | .bmSetBit h r c      => ⟨0x0A, 0, h, r, c⟩
  | .bmFromData byte len => ⟨0x0B, 0, byteField byte, len, 0⟩
  | .bmToData h          => ⟨0x0C, 0, h, 0, 0⟩
  | .bmMultiply hA hB    => ⟨0x0D, 0, hA, hB, 0⟩
  | .hamEncode hG msg    => ⟨0x0E, 0, hG, byteField msg, 0⟩
  | .hamDecode hH code   => ⟨0x0F, 0, hH, byteField code, 0⟩

/-- The command word of a command. -/
def encode (i : Instr) : CmdWord := i.toCommand.toWord

/-- The operand bits a command uses (R61, R63): what `encode` of the decoded command keeps of a word. -/
def Instr.usedFields : Instr → Command
  | .bvCreate ..   => ⟨0xFF, 0, 0xFFFFFFFF, 0, 0⟩
  | .bvDelete ..   => ⟨0xFF, 0, 0xFFFFFFFF, 0, 0⟩
  | .bvGetBit ..   => ⟨0xFF, 0, 0xFFFFFFFF, 0xFFFFFFFF, 0⟩
  | .bvSetBit ..   => ⟨0xFF, 0, 0xFFFFFFFF, 0xFFFFFFFF, 0⟩
  | .bvGetByte ..  => ⟨0xFF, 0, 0xFFFFFFFF, 0xFFFFFFFF, 0⟩
  | .bvSetByte ..  => ⟨0xFF, 0, 0xFFFFFFFF, 0xFFFFFFFF, 0xFF⟩
  | .bmCreate ..   => ⟨0xFF, 0, 0xFFFFFFFF, 0xFFFFFFFF, 0⟩
  | .bmDelete ..   => ⟨0xFF, 0, 0xFFFFFFFF, 0, 0⟩
  | .bmGetBit ..   => ⟨0xFF, 0, 0xFFFFFFFF, 0xFFFFFFFF, 0xFFFFFFFF⟩
  | .bmSetBit ..   => ⟨0xFF, 0, 0xFFFFFFFF, 0xFFFFFFFF, 0xFFFFFFFF⟩
  | .bmFromData .. => ⟨0xFF, 0, 0xFF, 0xFFFFFFFF, 0⟩
  | .bmToData ..   => ⟨0xFF, 0, 0xFFFFFFFF, 0, 0⟩
  | .bmMultiply .. => ⟨0xFF, 0, 0xFFFFFFFF, 0xFFFFFFFF, 0⟩
  | .hamEncode ..  => ⟨0xFF, 0, 0xFFFFFFFF, 0xFF, 0⟩
  | .hamDecode ..  => ⟨0xFF, 0, 0xFFFFFFFF, 0xFF, 0⟩

/-- The commands that have a result (the table's result column, R63): the others answer `OK` without a value. -/
def Instr.hasResult : Instr → Bool
  | .bvCreate .. | .bvGetBit .. | .bvGetByte .. | .bmCreate .. | .bmGetBit .. | .bmFromData .. | .bmToData ..
  | .bmMultiply .. | .hamEncode .. | .hamDecode .. => true
  | .bvDelete .. | .bvSetBit .. | .bvSetByte .. | .bmDelete .. | .bmSetBit .. => false

/-- The command a word of `nbits` bits decodes to, every bit above them 0 (the numbering of spec/opcode_table.json is
that of R60: bit 0 is the least significant bit of the one 128-bit word). -/
def decodeTableWord (nbits w : Nat) : Option Instr :=
  match decode (BitVec.ofNat 128 (w % 2 ^ nbits)) with
  | .ok i => some i
  | .error _ => none

end Sys2Proof
end

