-- ==== Sys2Proof/Machine/State.lean ====
section
/-! DEFINITION. The state of the block (spec/10_state.md R25 to R35), what stands at its ports, and its reset. -/

namespace Sys2Proof.Machine

/-- Sparse byte storage: the listed bytes by rising address; an address that is not listed reads as
`Config.unlistedByte`, and no cell lists that value (log 8). -/
abbrev Memory := List Host.Cell

/-- A finite partial map from handle numbers to records, by rising handle number (R25, R26, log 8). -/
abbrev Pool (α : Type) := List (Nat × α)

/-- A vector record: `length` addressable bits over `ceil(length/8)` bytes of storage (R25). -/
structure VecRec where
  length  : Nat
  storage : Memory
  deriving DecidableEq, Repr

/-- A matrix record: `rows`, `cols` and the backing vector it owns (R26). -/
structure MatRec where
  rows : Nat
  cols : Nat
  vec  : VecRec
  deriving DecidableEq, Repr

/-- The state of the block, the record of R35. -/
structure Block where
  vec      : Pool VecRec
  mat      : Pool MatRec
  encCache : Vector Byte 16
  decCache : Vector Byte 256
  deriving DecidableEq, Repr

/-- The five error kinds (spec/60_exceptions.md R140). -/
inductive ErrorKind where
  | alloc
  | range
  | handle
  | shape
  | illegal
  deriving DecidableEq, Repr

/-- The status of a response (R141): three completion statuses and the error kinds. -/
inductive Status where
  | ok
  | corrected
  | uncorrectable
  | error (e : ErrorKind)
  deriving DecidableEq, Repr

/-- A response: a status, and a value where the command rule gives one (spec/30_encoding.md R62). -/
structure Response where
  status : Status
  val    : Option (BitVec 32)
  deriving DecidableEq, Repr

/-- What the host does at the block's inputs (spec/00_scope.md R6, spec/70_reset_and_hazards.md R160). -/
inductive PortEvent where
  /-- a command word is presented on the command port -/
  | command (w : CmdWord)
  /-- reset is asserted between two commands -/
  | reset
  /-- reset is asserted while this command is in progress: the command is abandoned -/
  | resetDuring (w : CmdWord)
  deriving DecidableEq, Repr

/-- The block, and as data what its surroundings have laid out for it: the host's coming port events (log 1), the
responses the block has given (log 3), and the environment's coming answers to allocation draws (log 4). -/
structure State where
  block     : Block
  pending   : List PortEvent
  responses : List Response
  draws     : List (Option Handle)
  drawCount : Nat
  deriving DecidableEq, Repr

/-- Nothing stops the machine: every error is a response and a next state (R142, log 10). No one raises a fault. -/
inductive Fault where
  deriving DecidableEq, Repr

/-- Why an instruction has no meaning. -/
inductive Refusal where
  /-- Raised by a refused arm of `exec` alone, for a command that has no meaning yet. Safe. No arm raises it. -/
  | notModelled (mnemonic : String)
  deriving DecidableEq, Repr

/-- The outcome of one step. -/
abbrev Result := Host.Outcome State Fault Refusal

/-- The block after reset (R34): no vector, no matrix, both caches zero. -/
def Block.reset : Block :=
  { vec := [], mat := [], encCache := Vector.replicate 16 0, decCache := Vector.replicate 256 0 }

/-- The machine right after reset: the block of R34, waiting for its first command, with nothing laid out at its ports
(logs 2, 3, 4). -/
def State.reset : State :=
  { block := Block.reset, pending := [], responses := [], draws := [], drawCount := 0 }

end Sys2Proof.Machine
end

