-- ==== Sys2Proof/Machine/Ops.lean ====
section
/-! DEFINITION. The named operations over storage, pools, caches, the allocation draw, the response port and the inputs.
Every command's meaning is built from these. -/

namespace Sys2Proof.Machine

/-! ### Maps kept as lists by rising key -/

/-- The value listed for a key. -/
def lookup {α : Type} : List (Nat × α) → Nat → Option α
  | [], _ => none
  | (k, v) :: rest, a => if a = k then some v else lookup rest a

/-- List a value for a key, in its place by rising key. -/
def put {α : Type} : List (Nat × α) → Nat → α → List (Nat × α)
  | [], a, v => [(a, v)]
  | (k, w) :: rest, a, v =>
    if a < k then (a, v) :: (k, w) :: rest
    else if a = k then (a, v) :: rest
    else (k, w) :: put rest a v

/-- List nothing for a key. -/
def del {α : Type} (m : List (Nat × α)) (a : Nat) : List (Nat × α) := m.filter (fun e => e.1 ≠ a)

/-- The keys rise strictly. -/
abbrev Rising {α : Type} (m : List (Nat × α)) : Prop := m.Pairwise (fun x y => x.1 < y.1)

/-! ### Storage (spec/20_memory.md R40, R43, R44; spec/00_scope.md R12) -/

/-- `ceil(bits / 8)`, the number of storage bytes of a vector (R25, R55). -/
def bytesFor (bits : Nat) : Nat := (bits + 7) / 8

/-- The canonical form of storage: addresses rise strictly and no cell lists what an unlisted address reads as. -/
abbrev Memory.wf (S : Memory) : Prop := Rising S ∧ ∀ c ∈ S, c.2 ≠ Config.unlistedByte

/-- `MemRead(S, a, 8)`: the byte `S[a]` (R12). -/
def Memory.read (S : Memory) (a : Nat) : Byte := (lookup S a).getD Config.unlistedByte

/-- `MemWrite(S, a, 8, v)`: `S[a] <- v` (R12). -/
def Memory.write (S : Memory) (a : Nat) (v : Byte) : Memory :=
  if v = Config.unlistedByte then del S a else put S a v

/-- `MemRead(S, i, 1)`: bit `i mod 8` of the byte `S[i div 8]` (R12, R40). -/
def Memory.readBit (S : Memory) (i : Nat) : Bool := (S.read (i / 8)).getLsbD (i % 8)

/-- `MemSetBit(S, i)`: `S[i div 8] <- S[i div 8] OR (1 << (i mod 8))` (R12). There is no bit clear. -/
def Memory.setBit (S : Memory) (i : Nat) : Memory :=
  S.write (i / 8) (S.read (i / 8) ||| (1#8 <<< (i % 8)))

/-! ### Records -/

/-- The number of storage bytes of a vector (R25 a). -/
def VecRec.size (v : VecRec) : Nat := bytesFor v.length

/-- A vector of `length` bits, every storage byte 0 (R25, R34, R80). -/
def VecRec.zero (length : Nat) : VecRec := { length := length, storage := [] }

/-- A vector with storage byte `j` overwritten (R85). -/
def VecRec.setByte (v : VecRec) (j : Nat) (b : Byte) : VecRec := { v with storage := v.storage.write j b }

/-- A vector with bit `i` set (R83). -/
def VecRec.setBit (v : VecRec) (i : Nat) : VecRec := { v with storage := v.storage.setBit i }

/-- A `rows`×`cols` matrix, every storage byte 0 (R26, R34, R90). -/
def MatRec.zero (rows cols : Nat) : MatRec := { rows := rows, cols := cols, vec := VecRec.zero (rows * cols) }

/-- The backing bit of entry `(r, c)`, row-major (R45). -/
def MatRec.index (m : MatRec) (r c : Nat) : Nat := r * m.cols + c

/-- The entry `(r, c)` (R92). -/
def MatRec.entry (m : MatRec) (r c : Nat) : Bool := m.vec.storage.readBit (m.index r c)

/-- A matrix with entry `(r, c)` set (R93). -/
def MatRec.setEntry (m : MatRec) (r c : Nat) : MatRec := { m with vec := m.vec.setBit (m.index r c) }

/-- The first storage byte of a matrix (R95: the row extract). -/
def MatRec.firstByte (m : MatRec) : Byte := m.vec.storage.read 0

/-- `from_data(byte, length)`: a 1×`length` matrix whose first storage byte is `byte`, verbatim (R94). -/
def MatRec.fromData (byte : Byte) (length : Nat) : MatRec :=
  { rows := 1, cols := length, vec := (VecRec.zero length).setByte 0 byte }

/-! ### The pools and the caches (spec/10_state.md R25 to R29) -/

/-- `VEC[h]` (R12). -/
def Block.vecOf (b : Block) (h : Handle) : Option VecRec := lookup b.vec h.toNat

/-- `MAT[h]` (R12). -/
def Block.matOf (b : Block) (h : Handle) : Option MatRec := lookup b.mat h.toNat

/-- `VEC[h] <- v`. -/
def Block.putVec (b : Block) (h : Handle) (v : VecRec) : Block := { b with vec := put b.vec h.toNat v }

/-- `VEC[h] <- none`. -/
def Block.delVec (b : Block) (h : Handle) : Block := { b with vec := del b.vec h.toNat }

/-- `MAT[h] <- m`. -/
def Block.putMat (b : Block) (h : Handle) (m : MatRec) : Block := { b with mat := put b.mat h.toNat m }

/-- `MAT[h] <- none`; the backing vector is part of the record and goes with it (R26 d, R91). -/
def Block.delMat (b : Block) (h : Handle) : Block := { b with mat := del b.mat h.toNat }

/-- `ENC_CACHE[n]` (R28, R46). -/
def Block.encRead (b : Block) (n : Nibble) : Byte := b.encCache[n.toNat]'(n.isLt)

/-- `ENC_CACHE[n] <- v`. -/
def Block.encWrite (b : Block) (n : Nibble) (v : Byte) : Block :=
  { b with encCache := b.encCache.set n.toNat v n.isLt }

/-- `DEC_CACHE[k]` (R29, R46). -/
def Block.decRead (b : Block) (k : Byte) : Byte := b.decCache[k.toNat]'(k.isLt)

/-- `DEC_CACHE[k] <- v`. -/
def Block.decWrite (b : Block) (k : Byte) (v : Byte) : Block :=
  { b with decCache := b.decCache.set k.toNat v k.isLt }

/-- The state with another block. -/
def State.setBlock (s : State) (b : Block) : State := { s with block := b }

/-! ### Ending a command (spec/00_scope.md R12, spec/60_exceptions.md R142) -/

/-- `respond(st, v)`, and `respond(st)` with no value: the command ends with this response. -/
def State.respond (s : State) (st : Status) (v : Option (BitVec 32)) : State :=
  { s with responses := s.responses ++ [⟨st, v⟩] }

/-- `raise E_X`, the block's one way to take an exception (R142): the command ends with the error status and no value.
The block is untouched, nothing is saved, and the next command runs normally (R146). -/
def State.raise (s : State) (e : ErrorKind) : State := s.respond (.error e) none

/-! ### The allocation draw (spec/10_state.md R27) -/

/-- A vector handle is live. -/
def Block.vecLive (b : Block) (h : Handle) : Bool := (b.vecOf h).isSome

/-- A matrix handle is live. -/
def Block.matLive (b : Block) (h : Handle) : Bool := (b.matOf h).isSome

/-- What the environment answers to the next draw: the next answer laid out in State, else the free value (log 4). -/
def State.answer (s : State) (kind : AllocKind) (bits : Nat) : Option Handle :=
  match s.draws with
  | [] => Config.allocDraw kind bits s.drawCount
  | a :: _ => a

/-- The one law of R27: a granted handle is neither `NULL` nor live. An answer that breaks it counts as `fail`, which the
environment may always answer (log 5). -/
def admitted (live : Handle → Bool) (a : Option Handle) : Option Handle :=
  match a with
  | none => none
  | some h => if h = nullHandle ∨ live h = true then none else some h

/-- `draw alloc(vector)` for `bits` bits: `none` is `fail`. -/
def State.grantVector (s : State) (bits : Nat) : Option Handle := admitted s.block.vecLive (s.answer .vector bits)

/-- `draw alloc(matrix)` for `bits` bits: `none` is `fail`. -/
def State.grantMatrix (s : State) (bits : Nat) : Option Handle := admitted s.block.matLive (s.answer .matrix bits)

/-- The draw has been made: the next one gets the next answer (log 6). -/
def State.afterDraw (s : State) : State := { s with draws := s.draws.tail, drawCount := s.drawCount + 1 }

/-- The two draws a codec command makes on its compute path, for the operand row matrix and then for the result matrix,
which is drawn while the first is live (R112, R114, R124, R127; log 11): whether both were granted, and the state after
the draws that were made. Both matrices are released inside the command, so the block is as it was. -/
def State.drawIntermediates (s : State) (rowBits resultBits : Nat) : Bool × State :=
  match s.grantMatrix rowBits with
  | none => (false, s.afterDraw)
  | some t1 =>
    match admitted (fun h => h == t1 || s.block.matLive h) (s.afterDraw.answer .matrix resultBits) with
    | none => (false, s.afterDraw.afterDraw)
    | some _ => (true, s.afterDraw.afterDraw)

/-! ### The inputs (spec/00_scope.md R6, spec/70_reset_and_hazards.md R160) -/

/-- The next port event is taken, the others stay. -/
def State.taking (s : State) (rest : List PortEvent) : State := { s with pending := rest }

/-- Reset is asserted: both pools empty, both caches zero (R160). No response. What the host and the environment have laid
out is theirs and stays (log 7). -/
def State.applyReset (s : State) : State := s.setBlock Block.reset

/-- The command word selects no command (R64): `raise E_ILLEGAL`. -/
def State.illegalCommand (s : State) : Result := .next (s.raise .illegal)

/-- The block waits: the host has laid nothing out (R34, R161; log 1). -/
def State.waiting (s : State) : Result := .next s

end Sys2Proof.Machine
end

