-- ==== Sys2Proof/Machine/Operands.lean ====
section
/-! DEFINITION. Operand forms and operand checks (spec/30_encoding.md R61; spec/20_memory.md R42, R43, R45;
spec/60_exceptions.md R143). -/

namespace Sys2Proof.Machine

/-- The nibble of a byte operand: its low 4 bits (R61 d, R112 step 1, R124). -/
def nibbleOf (x : Byte) : Nibble := x.extractLsb' 0 4

/-- A nibble as a byte. -/
def byteOfNibble (n : Nibble) : Byte := n.zeroExtend 8

/-- A bit, zero-extended into a response's value field (R62). -/
def valOfBit (b : Bool) : BitVec 32 := if b then 1 else 0

/-- A byte, zero-extended into a response's value field (R62). -/
def valOfByte (x : Byte) : BitVec 32 := x.zeroExtend 32

/-- `0 <= i < length`: the bit space of a vector (R42). -/
abbrev VecRec.hasBit (v : VecRec) (i : Nat) : Prop := i < v.length

/-- `0 <= j < ceil(length/8)`: the byte space of a vector (R43). -/
abbrev VecRec.hasByte (v : VecRec) (j : Nat) : Prop := j < v.size

/-- `r` and `c` are each in range, tested apart (R45). -/
abbrev MatRec.hasEntry (m : MatRec) (r c : Nat) : Prop := r < m.rows ∧ c < m.cols

/-- A 1×N matrix with 1 ≤ N ≤ 8 (R95). -/
abbrev MatRec.isByteRow (m : MatRec) : Prop := m.rows = 1 ∧ 1 ≤ m.cols ∧ m.cols ≤ 8

/-- The shape of a generator matrix, 4×8 (R112). -/
abbrev MatRec.isGenerator (m : MatRec) : Prop := m.rows = 4 ∧ m.cols = 8

/-- The shape of a transposed parity-check matrix, 8×4 (R123). -/
abbrev MatRec.isParityCheck (m : MatRec) : Prop := m.rows = 8 ∧ m.cols = 4

/-- `rows*cols` is the length of a vector (R55, R90, R100, decision D17). -/
abbrev sizeFits (rows cols : Nat) : Prop := rows * cols < Config.bitLimit

end Sys2Proof.Machine
end

