-- ==== Sys2Proof/Machine/Flags.lean ====
section
/-! DEFINITION. Flags: none persist (spec/10_state.md R22). The only status is the status field of a response; here are
its numbers (spec/60_exceptions.md R141) and the response word (spec/30_encoding.md R62). -/

namespace Sys2Proof.Machine

/-- The number of an error status (R141). -/
def ErrorKind.code : ErrorKind → BitVec 8
  | .alloc   => 3
  | .range   => 4
  | .handle  => 5
  | .shape   => 6
  | .illegal => 7

/-- The number of a status, `RSP.status` (R141). -/
def Status.code : Status → BitVec 8
  | .ok            => 0
  | .corrected     => 1
  | .uncorrectable => 2
  | .error e       => e.code

/-- The response word: `status` 7:0, `rsv` 31:8 zero, `val` 63:32, 0 when there is no value (R62). -/
def Response.toWord (r : Response) : RspWord := r.val.getD 0 ++ (0 : BitVec 24) ++ r.status.code

end Sys2Proof.Machine
end

