-- ==== Sys2Proof/Machine/BitMatrix.lean ====
section
/-! DEFINITION. The Bit Matrix commands (spec/41_bit_matrix.md R90 to R96). -/

namespace Sys2Proof.Machine

/-- `BM_CREATE` (R90): the size test comes before the draw. -/
def execBmCreate (rows cols : Idx) (s : State) : Result :=
  .next <|
    if sizeFits rows.toNat cols.toNat then
      match s.grantMatrix (rows.toNat * cols.toNat) with
      | none => s.afterDraw.raise .alloc
      | some h => (s.afterDraw.setBlock (s.block.putMat h (MatRec.zero rows.toNat cols.toNat))).respond .ok (some h)
    else s.raise .alloc

/-- `BM_DELETE` (R91). -/
def execBmDelete (h : Handle) (s : State) : Result :=
  .next <|
    match s.block.matOf h with
    | none => s.raise .handle
    | some _ => (s.setBlock (s.block.delMat h)).respond .ok none

/-- `BM_GET_BIT` (R92). -/
def execBmGetBit (h : Handle) (r c : Idx) (s : State) : Result :=
  .next <|
    match s.block.matOf h with
    | none => s.raise .handle
    | some m =>
      if m.hasEntry r.toNat c.toNat then s.respond .ok (some (valOfBit (m.entry r.toNat c.toNat)))
      else s.raise .range

/-- `BM_SET_BIT` (R93). -/
def execBmSetBit (h : Handle) (r c : Idx) (s : State) : Result :=
  .next <|
    match s.block.matOf h with
    | none => s.raise .handle
    | some m =>
      if m.hasEntry r.toNat c.toNat then
        (s.setBlock (s.block.putMat h (m.setEntry r.toNat c.toNat))).respond .ok none
      else s.raise .range

/-- `BM_FROM_DATA` (R94): `length = 0` is refused before the draw. -/
def execBmFromData (byte : Byte) (length : Idx) (s : State) : Result :=
  .next <|
    if length.toNat = 0 then s.raise .range
    else
      match s.grantMatrix length.toNat with
      | none => s.afterDraw.raise .alloc
      | some h => (s.afterDraw.setBlock (s.block.putMat h (MatRec.fromData byte length.toNat))).respond .ok (some h)

/-- `BM_TO_DATA` for either value of `TO_DATA_STRICT` (R95 strict, R96 not strict). -/
def toDataWith (strict : Bool) (h : Handle) (s : State) : Result :=
  .next <|
    match s.block.matOf h with
    | none => s.raise .handle
    | some m =>
      if strict then
        if m.isByteRow then s.respond .ok (some (valOfByte m.firstByte)) else s.raise .shape
      else
        if m.rows * m.cols = 0 then s.raise .range else s.respond .ok (some (valOfByte m.firstByte))

/-- `BM_TO_DATA` (R95), with this hardware's `TO_DATA_STRICT` (log 13). -/
def execBmToData (h : Handle) (s : State) : Result := toDataWith Config.toDataStrict h s

end Sys2Proof.Machine
end

