-- ==== Sys2Proof/Machine/BitVector.lean ====
section
/-! DEFINITION. The Bit Vector commands (spec/40_bit_vector.md R80 to R85). -/

namespace Sys2Proof.Machine

/-- `BV_CREATE` (R80). -/
def execBvCreate (length : Idx) (s : State) : Result :=
  .next <|
    match s.grantVector length.toNat with
    | none => s.afterDraw.raise .alloc
    | some h => (s.afterDraw.setBlock (s.block.putVec h (VecRec.zero length.toNat))).respond .ok (some h)

/-- `BV_DELETE` (R81). -/
def execBvDelete (h : Handle) (s : State) : Result :=
  .next <|
    match s.block.vecOf h with
    | none => s.raise .handle
    | some _ => (s.setBlock (s.block.delVec h)).respond .ok none

/-- `BV_GET_BIT` (R82). -/
def execBvGetBit (h : Handle) (i : Idx) (s : State) : Result :=
  .next <|
    match s.block.vecOf h with
    | none => s.raise .handle
    | some v =>
      if v.hasBit i.toNat then s.respond .ok (some (valOfBit (v.storage.readBit i.toNat)))
      else s.raise .range

/-- `BV_SET_BIT` (R83). -/
def execBvSetBit (h : Handle) (i : Idx) (s : State) : Result :=
  .next <|
    match s.block.vecOf h with
    | none => s.raise .handle
    | some v =>
      if v.hasBit i.toNat then (s.setBlock (s.block.putVec h (v.setBit i.toNat))).respond .ok none
      else s.raise .range

/-- `BV_GET_BYTE` (R84). -/
def execBvGetByte (h : Handle) (j : Idx) (s : State) : Result :=
  .next <|
    match s.block.vecOf h with
    | none => s.raise .handle
    | some v =>
      if v.hasByte j.toNat then s.respond .ok (some (valOfByte (v.storage.read j.toNat)))
      else s.raise .range

/-- `BV_SET_BYTE` (R85). -/
def execBvSetByte (h : Handle) (j : Idx) (value : Byte) (s : State) : Result :=
  .next <|
    match s.block.vecOf h with
    | none => s.raise .handle
    | some v =>
      if v.hasByte j.toNat then (s.setBlock (s.block.putVec h (v.setByte j.toNat value))).respond .ok none
      else s.raise .range

end Sys2Proof.Machine
end

