-- ==== Sys2Proof/Machine/Multiply.lean ====
section
/-! DEFINITION. The GF(2) matrix multiply (spec/42_gf2_multiply.md R100 to R104). -/

namespace Sys2Proof.Machine

/-- `XOR_{a in [0,k)} e(a)`, `false` when `k = 0` (R12). -/
def xorUpTo : Nat → (Nat → Bool) → Bool
  | 0, _ => false
  | k + 1, e => xor (xorUpTo k e) (e k)

/-- The entry `R[r,c]` of the product `A·B` (R101). -/
def gf2Cell (A B : MatRec) (r c : Nat) : Bool := xorUpTo A.cols (fun k => A.entry r k && B.entry k c)

/-- Storage of `n` bits whose bit `i` is `f i`: it starts as zero and only the bits that are 1 are set, each once its value
is known (R102). Every other bit, padding included, is 0. -/
def packBits : Nat → (Nat → Bool) → Memory
  | 0, _ => []
  | n + 1, f => if f n then (packBits n f).setBit n else packBits n f

/-- A `rows`×`cols` matrix with these entries and padding 0. -/
def MatRec.ofEntries (rows cols : Nat) (f : Nat → Nat → Bool) : MatRec :=
  { rows := rows, cols := cols,
    vec := { length := rows * cols, storage := packBits (rows * cols) (fun i => f (i / cols) (i % cols)) } }

/-- `gf2_product(A, B)` (R101, R102). -/
def gf2Product (A B : MatRec) : MatRec := MatRec.ofEntries A.rows B.cols (gf2Cell A B)

/-- `A ⊕ B`, the entrywise exclusive-or of two matrices of equal shape. No command computes it; the laws of R104 are
stated with it. -/
def MatRec.add (A B : MatRec) : MatRec :=
  MatRec.ofEntries A.rows A.cols (fun r c => xor (A.entry r c) (B.entry r c))

/-- Row `r` of a matrix packed least significant bit first, columns 0 to 7 (R103). -/
def MatRec.rowByte (m : MatRec) (r : Nat) : Byte :=
  (packBits (min m.cols 8) (fun c => m.entry r c)).read 0

/-- `BM_MULTIPLY` (R100). -/
def execBmMultiply (hA hB : Handle) (s : State) : Result :=
  .next <|
    match s.block.matOf hA, s.block.matOf hB with
    | some A, some B =>
      if A.cols = B.rows then
        if sizeFits A.rows B.cols then
          match s.grantMatrix (A.rows * B.cols) with
          | none => s.afterDraw.raise .alloc
          | some h => (s.afterDraw.setBlock (s.block.putMat h (gf2Product A B))).respond .ok (some h)
        else s.raise .alloc
      else s.raise .shape
    | _, _ => s.raise .handle

end Sys2Proof.Machine
end

