-- ==== Sys2Proof/Machine/Decoder.lean ====
section
/-! DEFINITION. The Hamming(8,4) decoder (spec/44_hamming_decoder.md R120 to R130). -/

namespace Sys2Proof.Machine

/-- An entry of `CORRECTION_TABLE`: `OK`, `ERR` or a bit position 0 to 7 (R122). -/
inductive Correction where
  | ok
  | err
  | pos (p : Fin 8)
  deriving DecidableEq, Repr

/-- `CORRECTION_TABLE`, a constant of the hardware (R33, R122; log 15). -/
def correctionTable (s : Nibble) : Correction :=
  match s.toNat with
  | 0x0 => .ok
  | 0x1 => .pos 4
  | 0x2 => .pos 5
  | 0x4 => .pos 6
  | 0x7 => .pos 3
  | 0x8 => .pos 7
  | 0xB => .pos 2
  | 0xD => .pos 1
  | 0xE => .pos 0
  | _   => .err

/-- The syndrome of a received byte under `Hᵗ`, computed fresh: `from_data(code, 8)` times `Hᵗ`, the low 4 bits of
`to_data` (R124). -/
def syndromeWith (H : MatRec) (code : Byte) : Nibble :=
  nibbleOf (gf2Product (MatRec.fromData code 8) H).firstByte

/-- `syndrome + 1`, how the decode cache holds a syndrome (R29, R124). -/
def biased (syn : Nibble) : Byte := byteOfNibble syn + 1

/-- `cached_value - 1`, the syndrome a non-empty slot holds (R124; above 16 see log 16). -/
def unbiased (cached : Byte) : Nibble := nibbleOf (cached - 1)

/-- `syndrome_of` (R124): the syndrome, `none` when a draw failed, and the state after it. -/
def syndromeOf (H : MatRec) (code : Byte) (s : State) : Option Nibble × State :=
  if s.block.decRead code = 0 then
    match s.drawIntermediates 8 4 with
    | (false, s1) => (none, s1)
    | (true, s1) =>
      (some (syndromeWith H code), s1.setBlock (s1.block.decWrite code (biased (syndromeWith H code))))
  else (some (unbiased (s.block.decRead code)), s)

/-- The response a table entry gives for a received byte (R123, R125, R126). -/
def correct (entry : Correction) (code : Byte) : Response :=
  match entry with
  | .ok => ⟨.ok, some (valOfByte (code &&& 0xF))⟩
  | .err => ⟨.uncorrectable, none⟩
  | .pos p =>
    if p.val ≤ 3 then ⟨.corrected, some (valOfByte ((code ^^^ (1#8 <<< p.val)) &&& 0xF))⟩
    else ⟨.corrected, some (valOfByte (code &&& 0xF))⟩

/-- `HAM_DECODE` (R123): handle and shape come before the cache. -/
def execHamDecode (hH : Handle) (code : Byte) (s : State) : Result :=
  .next <|
    match s.block.matOf hH with
    | none => s.raise .handle
    | some H =>
      if H.isParityCheck then
        match syndromeOf H code s with
        | (none, s1) => s1.raise .alloc
        | (some syn, s1) =>
          s1.respond (correct (correctionTable syn) code).status (correct (correctionTable syn) code).val
      else s.raise .shape

end Sys2Proof.Machine
end

