-- ==== Sys2Proof/Machine/Encoder.lean ====
section
/-! DEFINITION. The Hamming(8,4) encoder (spec/43_hamming_encoder.md R110 to R115). -/

namespace Sys2Proof.Machine

/-- The codeword of a nibble under `G`, computed fresh: `from_data(nibble, 4)` times `G`, then `to_data` (R112 step 2). -/
def encodeWith (G : MatRec) (n : Nibble) : Byte := (gf2Product (MatRec.fromData (byteOfNibble n) 4) G).firstByte

/-- What a completed compute path leaves in `ENC_CACHE`: written for every nibble but 0, whatever the byte is (R113). -/
def Block.encStore (b : Block) (n : Nibble) (byte : Byte) : Block := if n = 0 then b else b.encWrite n byte

/-- The compute path is taken: nibble 0, or an empty cache slot (R112 step 2). -/
abbrev Block.encMiss (b : Block) (n : Nibble) : Prop := n = 0 ∨ b.encRead n = 0

/-- `HAM_ENCODE` (R112): handle and shape come before the cache. -/
def execHamEncode (hG : Handle) (msg : Byte) (s : State) : Result :=
  .next <|
    match s.block.matOf hG with
    | none => s.raise .handle
    | some G =>
      if G.isGenerator then
        if s.block.encMiss (nibbleOf msg) then
          match s.drawIntermediates 4 8 with
          | (false, s1) => s1.raise .alloc
          | (true, s1) =>
            (s1.setBlock (s1.block.encStore (nibbleOf msg) (encodeWith G (nibbleOf msg)))).respond .ok
              (some (valOfByte (encodeWith G (nibbleOf msg))))
        else s.respond .ok (some (valOfByte (s.block.encRead (nibbleOf msg))))
      else s.raise .shape

end Sys2Proof.Machine
end

