-- ==== Sys2Proof/Machine/Dispatch.lean ====
section
/-! DEFINITION. One arm per command: its meaning. -/

namespace Sys2Proof.Machine

-- The fifteen commands of spec/30_encoding.md R63, in the table's order.
def exec (i : Instr) (s : State) : Host.Outcome State Fault Refusal :=
  match i with
  | .bvCreate length => Sys2Proof.Machine.execBvCreate length s
  | .bvDelete h => Sys2Proof.Machine.execBvDelete h s
  | .bvGetBit h j => Sys2Proof.Machine.execBvGetBit h j s
  | .bvSetBit h j => Sys2Proof.Machine.execBvSetBit h j s
  | .bvGetByte h j => Sys2Proof.Machine.execBvGetByte h j s
  | .bvSetByte h j value => Sys2Proof.Machine.execBvSetByte h j value s
  | .bmCreate rows cols => Sys2Proof.Machine.execBmCreate rows cols s
  | .bmDelete h => Sys2Proof.Machine.execBmDelete h s
  | .bmGetBit h r c => Sys2Proof.Machine.execBmGetBit h r c s
  | .bmSetBit h r c => Sys2Proof.Machine.execBmSetBit h r c s
  | .bmFromData byte length => Sys2Proof.Machine.execBmFromData byte length s
  | .bmToData h => Sys2Proof.Machine.execBmToData h s
  | .bmMultiply hA hB => Sys2Proof.Machine.execBmMultiply hA hB s
  | .hamEncode hG msg => Sys2Proof.Machine.execHamEncode hG msg s
  | .hamDecode hH code => Sys2Proof.Machine.execHamDecode hH code s

end Sys2Proof.Machine
end

