-- ==== Sys2Proof/Machine/Step.lean ====
section
/-! DEFINITION. One step of the machine: the block takes what the host presents next (spec/00_scope.md R6). -/

namespace Sys2Proof.Machine

/-- One step (R6, R15): the block waits if the host presents nothing; a command word is decoded and its command's whole
effect is performed, with one response; reset puts the block in its reset state, whatever command it interrupts (R160). -/
def step (s : State) : Host.Outcome State Fault Refusal :=
  match s.pending with
  | [] => s.waiting
  | .reset :: rest => .next (s.taking rest).applyReset
  | .resetDuring _ :: rest => .next (s.taking rest).applyReset
  | .command w :: rest =>
    match decode w with
    | .ok i => exec i (s.taking rest)
    | .error _ => (s.taking rest).illegalCommand

/-- The host presents this command word, of `nbits` bits, next (log 2). -/
def State.withFetchWord (s : State) (nbits w : Nat) : State :=
  { s with pending := .command (BitVec.ofNat 128 (w % 2 ^ nbits)) :: s.pending }

end Sys2Proof.Machine
end

