-- ==== Sys2Proof/Machine/Reference.lean ====
section
/-! DEFINITION. The reference matrices the spec gives and the host's boot sequence that builds them. They are no state and
no constant of the hardware (spec/10_state.md R33): G and Hᵗ are operands. -/

namespace Sys2Proof.Machine

/-- `G_REF` (spec/43_hamming_encoder.md R111): 4×8, storage `[0xE1, 0xD2, 0xB4, 0x78]`. -/
def gRef : MatRec :=
  { rows := 4, cols := 8, vec := { length := 32, storage := [(0, 0xE1), (1, 0xD2), (2, 0xB4), (3, 0x78)] } }

/-- `HT_REF` (spec/44_hamming_decoder.md R121; log 15): 8×4, storage `[0xDE, 0x7B, 0x21, 0x84]`. -/
def htRef : MatRec :=
  { rows := 8, cols := 4, vec := { length := 32, storage := [(0, 0xDE), (1, 0x7B), (2, 0x21), (3, 0x84)] } }

/-- The 1 entries of `G_REF`, row and column (spec/70_reset_and_hazards.md R163). -/
def gRefOnes : List (Idx × Idx) :=
  [(0, 0), (0, 5), (0, 6), (0, 7), (1, 1), (1, 4), (1, 6), (1, 7)] ++
  [(2, 2), (2, 4), (2, 5), (2, 7), (3, 3), (3, 4), (3, 5), (3, 6)]

/-- The 1 entries of `HT_REF`, row and column (R163). -/
def htRefOnes : List (Idx × Idx) :=
  [(0, 1), (0, 2), (0, 3), (1, 0), (1, 2), (1, 3), (2, 0), (2, 1), (2, 3), (3, 0), (3, 1), (3, 2)] ++
  [(4, 0), (5, 1), (6, 2), (7, 3)]

/-- The host's reference boot sequence, where `g` and `ht` are the handles the two creations return (R162, R163). -/
def bootSequence (g ht : Handle) : List Instr :=
  Instr.bmCreate 4 8 :: gRefOnes.map (fun e => Instr.bmSetBit g e.1 e.2) ++
  Instr.bmCreate 8 4 :: htRefOnes.map (fun e => Instr.bmSetBit ht e.1 e.2)

end Sys2Proof.Machine
end

