-- ==== Sys2Proof/Safety.lean ====
section
/-! DEFINITION. What a good state is: the invariants the spec gives the state (spec/10_state.md R25 to R29), and when the
caches agree with a matrix (spec/70_reset_and_hazards.md R165). -/

namespace Sys2Proof.Machine

/-- A vector record as R25 has it: `length` below `2 ^ IDX_W`, storage in canonical form and of `ceil(length/8)` bytes. -/
abbrev VecRec.wf (v : VecRec) : Prop :=
  v.length < Config.bitLimit ∧ Memory.wf v.storage ∧ ∀ c ∈ v.storage, c.1 < v.size

/-- A matrix record as R26 has it: `rows` and `cols` are 32-bit (R8) and the backing vector has `rows*cols` bits. -/
abbrev MatRec.wf (m : MatRec) : Prop :=
  m.rows < Config.bitLimit ∧ m.cols < Config.bitLimit ∧ m.vec.length = m.rows * m.cols ∧ m.vec.wf

/-- A pool in canonical form whose live handles are 32-bit and not `NULL` (R27). -/
abbrev Pool.wf {α : Type} (p : Pool α) : Prop := Rising p ∧ ∀ e ∈ p, 0 < e.1 ∧ e.1 < 2 ^ 32

/-- The invariants of the block (R25 to R29): pools and their records are well formed, `ENC_CACHE[0]` is 0, and every
`DEC_CACHE` entry is in 0..16. -/
abbrev Block.Inv (b : Block) : Prop :=
  Pool.wf b.vec ∧ (∀ e ∈ b.vec, e.2.wf) ∧ Pool.wf b.mat ∧ (∀ e ∈ b.mat, e.2.wf) ∧
  b.encRead 0 = 0 ∧ ∀ k : Byte, (b.decRead k).toNat ≤ 16

/-- The invariant of the machine: that of its block. -/
abbrev State.Inv (s : State) : Prop := s.block.Inv

/-- Every non-empty encode slot holds the codeword under `G` (the premise R165 asks of a claim about `HAM_ENCODE`). -/
def Block.encAgrees (b : Block) (G : MatRec) : Prop := ∀ n : Nibble, b.encRead n ≠ 0 → b.encRead n = encodeWith G n

/-- Every non-empty decode slot holds the biased syndrome under `H` (the premise R165 asks of a claim about `HAM_DECODE`). -/
def Block.decAgrees (b : Block) (H : MatRec) : Prop :=
  ∀ k : Byte, b.decRead k ≠ 0 → b.decRead k = biased (syndromeWith H k)

/-- The command ended with this one response, and the input port is as it was. -/
abbrev Answered (s t : State) (st : Status) (v : Option (BitVec 32)) : Prop :=
  t.responses = s.responses ++ [⟨st, v⟩] ∧ t.pending = s.pending

/-- No allocation draw was made. The coming answers and the count are the model's own fields (logs 4, 6). -/
abbrev DrewNothing (s t : State) : Prop := t.draws = s.draws ∧ t.drawCount = s.drawCount

/-- One allocation draw was made (logs 4, 6). -/
abbrev DrewOnce (s t : State) : Prop := t.draws = s.draws.tail ∧ t.drawCount = s.drawCount + 1

/-- Two allocation draws were made (logs 4, 6). -/
abbrev DrewTwice (s t : State) : Prop := t.draws = s.draws.tail.tail ∧ t.drawCount = s.drawCount + 2

/-- `ENC_CACHE` and `DEC_CACHE` are as they were. -/
abbrev SameCaches (s t : State) : Prop :=
  t.block.encCache = s.block.encCache ∧ t.block.decCache = s.block.decCache

/-- The command raises this error before any draw: one error response, no value, and the state is otherwise as it was
(spec/60_exceptions.md R142). -/
def Raises (i : Instr) (s : State) (e : ErrorKind) : Prop :=
  ∃ t, exec i s = .next t ∧ Answered s t (.error e) none ∧ t.block = s.block ∧ DrewNothing s t

/-- The number of 1 bits of a byte: the weight of an error pattern (spec/44_hamming_decoder.md R129). -/
def weight (e : Byte) : Nat := (List.range 8).countP (fun k => e.getLsbD k)

/-- `XOR over r in 0..k-1 with x[r] = 1 of row_r(M)` (spec/42_gf2_multiply.md R103): the rows of `M` that the 1 bits of `x`
select, each packed least significant bit first, added over GF(2). -/
def xorRows (k : Nat) (x : Byte) (M : MatRec) : Byte :=
  (List.range k).foldl (fun y r => if x.getLsbD r then y ^^^ M.rowByte r else y) 0

end Sys2Proof.Machine
end

