-- ==== Sys2Proof/Certificates/Slice0/Obligations.lean ====
section
/-! DEFINITION. The statements made about the model, each from the rule of spec/ its docstring names. -/

open Sys2Proof Sys2Proof.Machine

/-! ### Encoding -/

/-- R60, R61, R63: decoding the word of a command gives the command, every operand at every value. -/
def Obligations.DecodeOfEncodeIsTheCommand : Prop := ∀ i : Instr, decode (encode i) = .ok i

/-- R60, R61, R63 say which bits a command uses and which it ignores: a decoded command keeps every bit it uses. That
`encode` writes 0 in every ignored bit is the model's choice (log 9, DESIGN CHOICE), not the spec's. -/
def Obligations.EncodeOfDecodeKeepsUsedBits : Prop :=
  ∀ (w : CmdWord) (i : Instr), decode w = .ok i → encode i = w &&& i.usedFields.toWord

/-- R64: `op = 0x00`, `op` in `0x10..0xFF` or `rsv != 0` is illegal, answers `E_ILLEGAL` and changes no state; every other
word is a command. -/
def Obligations.IllegalWordsAnswerEIllegal : Prop :=
  ∀ w : CmdWord,
    ((Command.ofWord w).op.toNat = 0 ∨ 0x10 ≤ (Command.ofWord w).op.toNat ∨ (Command.ofWord w).rsv ≠ 0 →
      ∀ (s : State) (rest : List PortEvent), s.pending = .command w :: rest →
        ∃ t, step s = .next t ∧ t.block = s.block ∧ t.responses = s.responses ++ [⟨.error .illegal, none⟩] ∧
          t.pending = rest ∧ DrewNothing s t) ∧
    (1 ≤ (Command.ofWord w).op.toNat → (Command.ofWord w).op.toNat < 0x10 → (Command.ofWord w).rsv = 0 →
      ∃ i, decode w = .ok i)

/-- R68 (sanity): the worked command words decode to the commands they stand for. -/
def Obligations.WorkedCommandWordsDecode : Prop :=
  decode 0x00000000000000000000000A00000001 = .ok (.bvCreate 10) ∧
  decode 0x00000000000000090000000100000004 = .ok (.bvSetBit 1 9) ∧
  decode 0x000000A5000000000000000100000006 = .ok (.bvSetByte 1 0 0xA5) ∧
  decode 0x00000005000000000000000200000009 = .ok (.bmGetBit 2 0 5) ∧
  decode 0x0000000000000005000000020000000E = .ok (.hamEncode 2 5) ∧
  decode 0x0000000000000075000000030000000F = .ok (.hamDecode 3 0x75) ∧
  decode 0x0000000000000056000000030000000F = .ok (.hamDecode 3 0x56) ∧
  decode 0x00000000000000000000000000000000 = .error .unassignedOpcode

/-- R62: the fields of every response word; an error response has `val = 0`, and a response without a value shows 0. -/
def Obligations.ResponseWordHasItsFields : Prop :=
  (∀ r : Response, r.toWord.extractLsb' 0 8 = r.status.code ∧ r.toWord.extractLsb' 8 24 = 0 ∧
    (∀ x, r.val = some x → r.toWord.extractLsb' 32 32 = x) ∧ (r.val = none → r.toWord.extractLsb' 32 32 = 0)) ∧
  (∀ (s : State) (st : Status) (v : Option (BitVec 32)), (s.respond st v).responses = s.responses ++ [⟨st, v⟩]) ∧
  (∀ (s : State) (e : ErrorKind), (s.raise e).responses = s.responses ++ [⟨.error e, none⟩])

/-- R141: the numbers of the statuses; 8 to 255 are never produced, and two statuses never share a number. -/
def Obligations.StatusNumbersAreTheTable : Prop :=
  Status.code .ok = 0 ∧ Status.code .corrected = 1 ∧ Status.code .uncorrectable = 2 ∧
  Status.code (.error .alloc) = 3 ∧ Status.code (.error .range) = 4 ∧ Status.code (.error .handle) = 5 ∧
  Status.code (.error .shape) = 6 ∧ Status.code (.error .illegal) = 7 ∧
  (∀ st : Status, st.code.toNat < 8) ∧ ∀ st st' : Status, st.code = st'.code → st = st'

/-- R141, R142, R63: what a response carries, row by row. `OK` carries a value if and only if the command has a result;
`CORRECTED` carries one, `UNCORRECTABLE` none, and both come from `HAM_DECODE` only; errors carry none. -/
def Obligations.ResponsesCarryValuesAsTheTableSays : Prop :=
  ∀ (i : Instr) (s t : State), exec i s = .next t → ∃ r, t.responses = s.responses ++ [r] ∧
    (r.status = .ok → r.val.isSome = i.hasResult) ∧
    (∀ e, r.status = .error e → r.val = none ∧ e ≠ .illegal) ∧
    (r.status = .uncorrectable → r.val = none ∧ ∃ h c, i = .hamDecode h c) ∧
    (r.status = .corrected → (∃ x, r.val = some x) ∧ ∃ h c, i = .hamDecode h c)

/-! ### The step -/

/-- R6: when the next word on the port decodes, the step is that command's effect, with the word taken from the port. -/
def Obligations.StepRunsTheDecodedCommand : Prop :=
  ∀ (s : State) (w : CmdWord) (rest : List PortEvent) (i : Instr),
    s.pending = .command w :: rest → decode w = .ok i → step s = exec i { s with pending := rest }

/-- R6, R170: every word presented on the port, legal or not, is taken in one step and gets exactly one response. -/
def Obligations.EveryWordGetsOneResponse : Prop :=
  ∀ (s : State) (w : CmdWord) (rest : List PortEvent), s.pending = .command w :: rest →
    ∃ t r, step s = .next t ∧ t.responses = s.responses ++ [r] ∧ t.pending = rest

/-- R161 and log 1 (the model's choice of what a step without a command is): with nothing presented the block waits. -/
def Obligations.IdleBlockWaits : Prop := ∀ s : State, s.pending = [] → step s = .next s

/-- R160: reset, between commands or during one, empties both pools and zeroes both caches; no other step clears a cache
entry. That a reset leaves the coming port events and the responses already given as they are is the model's choice (log 7,
DESIGN CHOICE). -/
def Obligations.ResetEmptiesPoolsAndCaches : Prop :=
  (∀ (s : State) (w : CmdWord) (rest : List PortEvent),
    s.pending = .reset :: rest ∨ s.pending = .resetDuring w :: rest →
      ∃ t, step s = .next t ∧ (∀ h, t.block.vecOf h = none) ∧ (∀ h, t.block.matOf h = none) ∧
        (∀ n, t.block.encRead n = 0) ∧ (∀ k, t.block.decRead k = 0) ∧ t.block = State.reset.block ∧
        t.responses = s.responses ∧ t.pending = rest) ∧
  ∀ s t : State, step s = .next t →
    (∀ rest, s.pending ≠ .reset :: rest) → (∀ w rest, s.pending ≠ .resetDuring w :: rest) →
      (∀ n, s.block.encRead n ≠ 0 → t.block.encRead n ≠ 0) ∧ ∀ k, s.block.decRead k ≠ 0 → t.block.decRead k ≠ 0

/-- R34, R161: what reset leaves, what a new object holds, and that the block then waits (the empty port is log 2's). -/
def Obligations.ResetStateIsTheTable : Prop :=
  (∀ h, State.reset.block.vecOf h = none) ∧ (∀ h, State.reset.block.matOf h = none) ∧
  (∀ n, State.reset.block.encRead n = 0) ∧ (∀ k, State.reset.block.decRead k = 0) ∧
  (∀ n j, (VecRec.zero n).storage.read j = 0) ∧ (∀ r c j, (MatRec.zero r c).vec.storage.read j = 0) ∧
  step State.reset = .next State.reset

/-! ### Whole-machine rules -/

/-- R25 to R29, R35: every step keeps the invariants, from every state that has them. -/
def Obligations.StepKeepsTheInvariant : Prop := ∀ s t : State, s.Inv → step s = .next t → t.Inv

/-- R34, R35: the state after reset has the invariants. -/
def Obligations.ResetHasTheInvariant : Prop := State.reset.Inv

/-- R142: whatever word stands on the port, if the answer is an error, no part of the block's state changes, nothing is
saved, the response has no value and reads `val = 0`, and the next command is taken as usual. -/
def Obligations.ErrorsChangeNoState : Prop :=
  ∀ (s t : State) (w : CmdWord) (rest : List PortEvent) (r : Response) (e : ErrorKind),
    s.pending = .command w :: rest → step s = .next t → t.responses = s.responses ++ [r] → r.status = .error e →
      t.block = s.block ∧ t.pending = rest ∧ r.val = none ∧ r.toWord = (0 : BitVec 56) ++ e.code

/-- R28, R30, R113: a command never changes a non-zero cache entry, and never writes `ENC_CACHE[0]`. -/
def Obligations.CacheEntriesAreWrittenOnce : Prop :=
  ∀ (i : Instr) (s t : State), exec i s = .next t →
    (∀ n, s.block.encRead n ≠ 0 → t.block.encRead n = s.block.encRead n) ∧
    (∀ k, s.block.decRead k ≠ 0 → t.block.decRead k = s.block.decRead k) ∧
    t.block.encRead 0 = s.block.encRead 0

/-- R25 b, R26 b: the length of a live vector and the shape of a live matrix never change. -/
def Obligations.LengthsAndShapesNeverChange : Prop :=
  ∀ (i : Instr) (s t : State), exec i s = .next t →
    (∀ h v v', s.block.vecOf h = some v → t.block.vecOf h = some v' → v'.length = v.length) ∧
    ∀ h m m', s.block.matOf h = some m → t.block.matOf h = some m' →
      m'.rows = m.rows ∧ m'.cols = m.cols ∧ m'.vec.length = m.vec.length

/-- R168, R25, R26: an object stays until the command that deletes it; no other command ends it. -/
def Obligations.ObjectsStayUntilDeleted : Prop :=
  ∀ (i : Instr) (s t : State), exec i s = .next t →
    (∀ h, s.block.vecOf h ≠ none → t.block.vecOf h = none → i = .bvDelete h) ∧
    ∀ h, s.block.matOf h ≠ none → t.block.matOf h = none → i = .bmDelete h

/-- R83, R93, R166: no command clears a bit of a live matrix, and only `BV_SET_BYTE` clears a bit of a live vector. -/
def Obligations.BitsAreClearedByByteWritesOnly : Prop :=
  ∀ (i : Instr) (s t : State), exec i s = .next t →
    (∀ h m m' a, s.block.matOf h = some m → t.block.matOf h = some m' →
      m.vec.storage.readBit a = true → m'.vec.storage.readBit a = true) ∧
    ∀ h v v' a, s.block.vecOf h = some v → t.block.vecOf h = some v' →
      v.storage.readBit a = true → v'.storage.readBit a = false → ∃ j x, i = .bvSetByte h j x

/-- R25, R26, R28, R29, R86 P5, R97 P10: each family of commands changes its own state only. -/
def Obligations.FamiliesKeepToTheirState : Prop :=
  ∀ (i : Instr) (s t : State), exec i s = .next t →
    (i.isVectorCommand = true → t.block.mat = s.block.mat ∧ SameCaches s t) ∧
    (i.isMatrixCommand = true → t.block.vec = s.block.vec ∧ SameCaches s t) ∧
    (∀ h x, i = .hamEncode h x → t.block.vec = s.block.vec ∧ t.block.mat = s.block.mat ∧
      t.block.decCache = s.block.decCache) ∧
    ∀ h x, i = .hamDecode h x → t.block.vec = s.block.vec ∧ t.block.mat = s.block.mat ∧
      t.block.encCache = s.block.encCache

/-- R27: a granted handle is not `NULL` and not live; and nothing else constrains the draw: over any block, any such handle
can be granted, and the draw can fail. -/
def Obligations.DrawsAreFreshAndOtherwiseFree : Prop :=
  (∀ (s : State) (bits : Nat) (h : Handle),
    (s.grantVector bits = some h → h ≠ 0 ∧ s.block.vecOf h = none) ∧
    (s.grantMatrix bits = some h → h ≠ 0 ∧ s.block.matOf h = none)) ∧
  ∀ (b : Block) (bits : Nat),
    (∀ h : Handle, h ≠ 0 → b.vecOf h = none → ∃ s : State, s.block = b ∧ s.grantVector bits = some h) ∧
    (∀ h : Handle, h ≠ 0 → b.matOf h = none → ∃ s : State, s.block = b ∧ s.grantMatrix bits = some h) ∧
    (∃ s : State, s.block = b ∧ s.grantVector bits = none) ∧ ∃ s : State, s.block = b ∧ s.grantMatrix bits = none

/-- R45, R55: with the invariants, an entry in range has a backing bit in range, below `2 ^ 32`: the index never overflows. -/
def Obligations.MatrixIndexNeverOverflows : Prop :=
  ∀ (s : State) (h : Handle) (m : MatRec) (r c : Nat), s.Inv → s.block.matOf h = some m → r < m.rows → c < m.cols →
    r * m.cols + c ≤ m.rows * m.cols - 1 ∧ r * m.cols + c < m.vec.length ∧ r * m.cols + c < 2 ^ 32

/-! ### Bit Vector commands -/

/-- R80: `BV_CREATE`. -/
def Obligations.BvCreateMakesAZeroVector : Prop :=
  (∀ n b c, decode (Command.toWord ⟨0x01, 0, n, b, c⟩) = .ok (.bvCreate n)) ∧
  ∀ (n : Idx) (s : State),
    (s.grantVector n.toNat = none → ∃ t, exec (.bvCreate n) s = .next t ∧ Answered s t (.error .alloc) none ∧
      t.block = s.block ∧ DrewOnce s t) ∧
    ∀ h, s.grantVector n.toNat = some h → ∃ t, exec (.bvCreate n) s = .next t ∧ Answered s t .ok (some h) ∧
      s.block.vecOf h = none ∧ h ≠ 0 ∧
      (∃ v, t.block.vecOf h = some v ∧ v.length = n.toNat ∧ ∀ j, v.storage.read j = 0) ∧
      (∀ h', h' ≠ h → t.block.vecOf h' = s.block.vecOf h') ∧ t.block.mat = s.block.mat ∧ SameCaches s t ∧ DrewOnce s t

/-- R81: `BV_DELETE`. -/
def Obligations.BvDeleteRemovesTheVector : Prop :=
  (∀ h b c, decode (Command.toWord ⟨0x02, 0, h, b, c⟩) = .ok (.bvDelete h)) ∧
  ∀ (h : Handle) (s : State),
    (s.block.vecOf h = none → Raises (.bvDelete h) s .handle) ∧
    (s.block.vecOf h ≠ none → ∃ t, exec (.bvDelete h) s = .next t ∧ Answered s t .ok none ∧ t.block.vecOf h = none ∧
      (∀ h', h' ≠ h → t.block.vecOf h' = s.block.vecOf h') ∧ t.block.mat = s.block.mat ∧ SameCaches s t ∧
      DrewNothing s t ∧ ∀ (k : Idx) (x : Byte), Raises (.bvDelete h) t .handle ∧ Raises (.bvGetBit h k) t .handle ∧
        Raises (.bvSetBit h k) t .handle ∧ Raises (.bvGetByte h k) t .handle ∧ Raises (.bvSetByte h k x) t .handle)

/-- R82: `BV_GET_BIT`. -/
def Obligations.BvGetBitReadsTheBit : Prop :=
  (∀ h i c, decode (Command.toWord ⟨0x03, 0, h, i, c⟩) = .ok (.bvGetBit h i)) ∧
  ∀ (h : Handle) (i : Idx) (s : State),
    (s.block.vecOf h = none → Raises (.bvGetBit h i) s .handle) ∧
    ∀ v, s.block.vecOf h = some v →
      (v.length ≤ i.toNat → Raises (.bvGetBit h i) s .range) ∧
      (i.toNat < v.length → ∃ t, exec (.bvGetBit h i) s = .next t ∧
        Answered s t .ok (some (BitVec.ofNat 32 ((v.storage.read (i.toNat / 8)).toNat / 2 ^ (i.toNat % 8) % 2))) ∧
        t.block = s.block ∧ DrewNothing s t)

/-- R83: `BV_SET_BIT`. -/
def Obligations.BvSetBitSetsTheBit : Prop :=
  (∀ h i c, decode (Command.toWord ⟨0x04, 0, h, i, c⟩) = .ok (.bvSetBit h i)) ∧
  ∀ (h : Handle) (i : Idx) (s : State),
    (s.block.vecOf h = none → Raises (.bvSetBit h i) s .handle) ∧
    ∀ v, s.block.vecOf h = some v →
      (v.length ≤ i.toNat → Raises (.bvSetBit h i) s .range) ∧
      (i.toNat < v.length → ∃ t v', exec (.bvSetBit h i) s = .next t ∧ Answered s t .ok none ∧
        t.block.vecOf h = some v' ∧ v'.length = v.length ∧
        (∀ j, v'.storage.read j = if j = i.toNat / 8 then v.storage.read j ||| (1#8 <<< (i.toNat % 8)) else v.storage.read j) ∧
        (∀ h', h' ≠ h → t.block.vecOf h' = s.block.vecOf h') ∧ t.block.mat = s.block.mat ∧ SameCaches s t ∧
        DrewNothing s t)

/-- R84: `BV_GET_BYTE`. -/
def Obligations.BvGetByteReadsTheByte : Prop :=
  (∀ h j c, decode (Command.toWord ⟨0x05, 0, h, j, c⟩) = .ok (.bvGetByte h j)) ∧
  ∀ (h : Handle) (j : Idx) (s : State),
    (s.block.vecOf h = none → Raises (.bvGetByte h j) s .handle) ∧
    ∀ v, s.block.vecOf h = some v →
      ((v.length + 7) / 8 ≤ j.toNat → Raises (.bvGetByte h j) s .range) ∧
      (j.toNat < (v.length + 7) / 8 → ∃ t, exec (.bvGetByte h j) s = .next t ∧
        Answered s t .ok (some ((v.storage.read j.toNat).setWidth 32)) ∧ t.block = s.block ∧ DrewNothing s t)

/-- R85: `BV_SET_BYTE`. -/
def Obligations.BvSetByteOverwritesTheByte : Prop :=
  (∀ h j c, decode (Command.toWord ⟨0x06, 0, h, j, c⟩) = .ok (.bvSetByte h j (c.setWidth 8))) ∧
  ∀ (h : Handle) (j : Idx) (x : Byte) (s : State),
    (s.block.vecOf h = none → Raises (.bvSetByte h j x) s .handle) ∧
    ∀ v, s.block.vecOf h = some v →
      ((v.length + 7) / 8 ≤ j.toNat → Raises (.bvSetByte h j x) s .range) ∧
      (j.toNat < (v.length + 7) / 8 → ∃ t v', exec (.bvSetByte h j x) s = .next t ∧ Answered s t .ok none ∧
        t.block.vecOf h = some v' ∧ v'.length = v.length ∧
        (∀ a, v'.storage.read a = if a = j.toNat then x else v.storage.read a) ∧
        (∀ h', h' ≠ h → t.block.vecOf h' = s.block.vecOf h') ∧ t.block.mat = s.block.mat ∧ SameCaches s t ∧
        DrewNothing s t)

/-- R86: the properties of the Bit Vector commands, P1 to P5. -/
def Obligations.BitVectorPropertiesHold : Prop :=
  (∀ (n i : Idx) (h : Handle) (s t : State), s.grantVector n.toNat = some h → exec (.bvCreate n) s = .next t →
    i.toNat < n.toNat → ∃ u, exec (.bvGetBit h i) t = .next u ∧ Answered t u .ok (some 0)) ∧
  (∀ (h : Handle) (i k : Idx) (v : VecRec) (s t : State), s.block.vecOf h = some v → i.toNat < v.length →
    k.toNat < v.length → exec (.bvSetBit h i) s = .next t →
      (∃ u, exec (.bvGetBit h i) t = .next u ∧ Answered t u .ok (some 1)) ∧
      (k ≠ i → ∃ x u u', exec (.bvGetBit h k) s = .next u ∧ Answered s u .ok (some x) ∧
        exec (.bvGetBit h k) t = .next u' ∧ Answered t u' .ok (some x))) ∧
  (∀ (h : Handle) (j k : Idx) (x : Byte) (v : VecRec) (s t : State), s.block.vecOf h = some v →
    j.toNat < (v.length + 7) / 8 → k.toNat < (v.length + 7) / 8 → exec (.bvSetByte h j x) s = .next t →
      (∃ u, exec (.bvGetByte h j) t = .next u ∧ Answered t u .ok (some (x.setWidth 32))) ∧
      (k ≠ j → ∃ y u u', exec (.bvGetByte h k) s = .next u ∧ Answered s u .ok (some y) ∧
        exec (.bvGetByte h k) t = .next u' ∧ Answered t u' .ok (some y))) ∧
  (∀ (h : Handle) (j i : Idx) (k : Nat) (v : VecRec) (s : State), s.block.vecOf h = some v → k < 8 →
    i.toNat = 8 * j.toNat + k → 8 * j.toNat + k < v.length →
      ∃ (y : BitVec 32) (u u' : State), exec (.bvGetByte h j) s = .next u ∧ Answered s u .ok (some y) ∧
        exec (.bvGetBit h i) s = .next u' ∧ Answered s u' .ok (some (if y.getLsbD k then 1 else 0))) ∧
  ∀ (i : Instr) (s t : State), exec i s = .next t →
    (i.isVectorCommand = true → t.block.mat = s.block.mat ∧ SameCaches s t) ∧
    ∀ h v, s.block.vecOf h = some v → t.block.vecOf h ≠ some v →
      i = .bvDelete h ∨ (∃ k, i = .bvSetBit h k) ∨ ∃ j x, i = .bvSetByte h j x

/-! ### Bit Matrix commands -/

/-- R90: `BM_CREATE`. -/
def Obligations.BmCreateMakesAZeroMatrix : Prop :=
  (∀ r c x, decode (Command.toWord ⟨0x07, 0, r, c, x⟩) = .ok (.bmCreate r c)) ∧
  ∀ (r c : Idx) (s : State),
    (2 ^ 32 ≤ r.toNat * c.toNat → Raises (.bmCreate r c) s .alloc) ∧
    (r.toNat * c.toNat < 2 ^ 32 →
      (s.grantMatrix (r.toNat * c.toNat) = none → ∃ t, exec (.bmCreate r c) s = .next t ∧
        Answered s t (.error .alloc) none ∧ t.block = s.block ∧ DrewOnce s t) ∧
      ∀ h, s.grantMatrix (r.toNat * c.toNat) = some h → ∃ t m, exec (.bmCreate r c) s = .next t ∧
        Answered s t .ok (some h) ∧ s.block.matOf h = none ∧ h ≠ 0 ∧ t.block.matOf h = some m ∧
        m.rows = r.toNat ∧ m.cols = c.toNat ∧ m.vec.length = r.toNat * c.toNat ∧ (∀ j, m.vec.storage.read j = 0) ∧
        (∀ h', h' ≠ h → t.block.matOf h' = s.block.matOf h') ∧ t.block.vec = s.block.vec ∧ SameCaches s t ∧
        DrewOnce s t)

/-- R91: `BM_DELETE`. -/
def Obligations.BmDeleteRemovesTheMatrix : Prop :=
  (∀ h b c, decode (Command.toWord ⟨0x08, 0, h, b, c⟩) = .ok (.bmDelete h)) ∧
  ∀ (h : Handle) (s : State),
    (s.block.matOf h = none → Raises (.bmDelete h) s .handle) ∧
    (s.block.matOf h ≠ none → ∃ t, exec (.bmDelete h) s = .next t ∧ Answered s t .ok none ∧ t.block.matOf h = none ∧
      (∀ h', h' ≠ h → t.block.matOf h' = s.block.matOf h') ∧ t.block.vec = s.block.vec ∧ SameCaches s t ∧
      DrewNothing s t ∧ ∀ msg, Raises (.hamEncode h msg) t .handle)

/-- R92: `BM_GET_BIT`. -/
def Obligations.BmGetBitReadsTheEntry : Prop :=
  (∀ h r c, decode (Command.toWord ⟨0x09, 0, h, r, c⟩) = .ok (.bmGetBit h r c)) ∧
  ∀ (h : Handle) (r c : Idx) (s : State),
    (s.block.matOf h = none → Raises (.bmGetBit h r c) s .handle) ∧
    ∀ m, s.block.matOf h = some m →
      (m.rows ≤ r.toNat ∨ m.cols ≤ c.toNat → Raises (.bmGetBit h r c) s .range) ∧
      (r.toNat < m.rows → c.toNat < m.cols → ∃ t, exec (.bmGetBit h r c) s = .next t ∧
        Answered s t .ok (some (BitVec.ofNat 32
          ((m.vec.storage.read ((r.toNat * m.cols + c.toNat) / 8)).toNat / 2 ^ ((r.toNat * m.cols + c.toNat) % 8) % 2))) ∧
        t.block = s.block ∧ DrewNothing s t)

/-- R93: `BM_SET_BIT`. -/
def Obligations.BmSetBitSetsTheEntry : Prop :=
  (∀ h r c, decode (Command.toWord ⟨0x0A, 0, h, r, c⟩) = .ok (.bmSetBit h r c)) ∧
  ∀ (h : Handle) (r c : Idx) (s : State),
    (s.block.matOf h = none → Raises (.bmSetBit h r c) s .handle) ∧
    ∀ m, s.block.matOf h = some m →
      (m.rows ≤ r.toNat ∨ m.cols ≤ c.toNat → Raises (.bmSetBit h r c) s .range) ∧
      (r.toNat < m.rows → c.toNat < m.cols → ∃ t m', exec (.bmSetBit h r c) s = .next t ∧ Answered s t .ok none ∧
        t.block.matOf h = some m' ∧ m'.rows = m.rows ∧ m'.cols = m.cols ∧ m'.vec.length = m.vec.length ∧
        (∀ j, m'.vec.storage.read j =
          if j = (r.toNat * m.cols + c.toNat) / 8
          then m.vec.storage.read j ||| (1#8 <<< ((r.toNat * m.cols + c.toNat) % 8)) else m.vec.storage.read j) ∧
        (∀ h', h' ≠ h → t.block.matOf h' = s.block.matOf h') ∧ t.block.vec = s.block.vec ∧ SameCaches s t ∧
        DrewNothing s t)

/-- R94: `BM_FROM_DATA`. -/
def Obligations.BmFromDataMakesAByteRow : Prop :=
  (∀ a n c, decode (Command.toWord ⟨0x0B, 0, a, n, c⟩) = .ok (.bmFromData (a.setWidth 8) n)) ∧
  ∀ (x : Byte) (n : Idx) (s : State),
    (n.toNat = 0 → Raises (.bmFromData x n) s .range) ∧
    (n.toNat ≠ 0 →
      (s.grantMatrix n.toNat = none → ∃ t, exec (.bmFromData x n) s = .next t ∧
        Answered s t (.error .alloc) none ∧ t.block = s.block ∧ DrewOnce s t) ∧
      ∀ h, s.grantMatrix n.toNat = some h → ∃ t m, exec (.bmFromData x n) s = .next t ∧
        Answered s t .ok (some h) ∧ s.block.matOf h = none ∧ h ≠ 0 ∧ t.block.matOf h = some m ∧
        m.rows = 1 ∧ m.cols = n.toNat ∧ m.vec.length = n.toNat ∧ m.vec.storage.read 0 = x ∧
        (∀ j, j ≠ 0 → m.vec.storage.read j = 0) ∧
        (∀ c, c < n.toNat → m.entry 0 c = if c < 8 then x.getLsbD c else false) ∧
        (∀ h', h' ≠ h → t.block.matOf h' = s.block.matOf h') ∧ t.block.vec = s.block.vec ∧ SameCaches s t ∧
        DrewOnce s t)

/-- R95: `BM_TO_DATA`. -/
def Obligations.BmToDataReadsTheRowByte : Prop :=
  (∀ h b c, decode (Command.toWord ⟨0x0C, 0, h, b, c⟩) = .ok (.bmToData h)) ∧
  ∀ (h : Handle) (s : State),
    (s.block.matOf h = none → Raises (.bmToData h) s .handle) ∧
    ∀ m, s.block.matOf h = some m →
      (¬(m.rows = 1 ∧ 1 ≤ m.cols ∧ m.cols ≤ 8) → Raises (.bmToData h) s .shape) ∧
      (m.rows = 1 → 1 ≤ m.cols → m.cols ≤ 8 → ∃ t, exec (.bmToData h) s = .next t ∧
        Answered s t .ok (some ((m.vec.storage.read 0).setWidth 32)) ∧ t.block = s.block ∧ DrewNothing s t ∧
        ∀ c, c < m.cols → (m.vec.storage.read 0).getLsbD c = m.entry 0 c)

/-- R96: `BM_TO_DATA` with `TO_DATA_STRICT = false`, the variant. -/
def Obligations.NonStrictToDataReadsAnyFirstByte : Prop :=
  ∀ (h : Handle) (s : State),
    (s.block.matOf h = none → toDataWith false h s = .next (s.raise .handle)) ∧
    ∀ m, s.block.matOf h = some m →
      (m.rows * m.cols = 0 → toDataWith false h s = .next (s.raise .range)) ∧
      (m.rows * m.cols ≠ 0 →
        toDataWith false h s = .next (s.respond .ok (some ((m.vec.storage.read 0).setWidth 32))))

/-- R97: the properties of the Bit Matrix commands, P6 to P10. -/
def Obligations.BitMatrixPropertiesHold : Prop :=
  (∀ (x : Byte) (n : Idx) (h : Handle) (s t : State), 1 ≤ n.toNat → n.toNat ≤ 8 →
    s.grantMatrix n.toNat = some h → exec (.bmFromData x n) s = .next t →
      ∃ u, exec (.bmToData h) t = .next u ∧ Answered t u .ok (some (x.setWidth 32))) ∧
  (∀ (h : Handle) (r c r' c' : Idx) (m : MatRec) (s t : State), s.block.matOf h = some m →
    r.toNat < m.rows → c.toNat < m.cols → r'.toNat < m.rows → c'.toNat < m.cols →
    exec (.bmSetBit h r c) s = .next t →
      (∃ u, exec (.bmGetBit h r c) t = .next u ∧ Answered t u .ok (some 1)) ∧
      ((r', c') ≠ (r, c) → ∃ x u u', exec (.bmGetBit h r' c') s = .next u ∧ Answered s u .ok (some x) ∧
        exec (.bmGetBit h r' c') t = .next u' ∧ Answered t u' .ok (some x))) ∧
  (∀ (rows cols r c : Idx) (h : Handle) (s t : State), rows.toNat * cols.toNat < 2 ^ 32 →
    s.grantMatrix (rows.toNat * cols.toNat) = some h → exec (.bmCreate rows cols) s = .next t →
    r.toNat < rows.toNat → c.toNat < cols.toNat →
      ∃ u, exec (.bmGetBit h r c) t = .next u ∧ Answered t u .ok (some 0)) ∧
  ∀ (i : Instr) (s t : State), exec i s = .next t → i.isMatrixCommand = true →
    t.block.vec = s.block.vec ∧ SameCaches s t

/-! ### GF(2) multiply -/

/-- R100: `BM_MULTIPLY`. -/
def Obligations.BmMultiplyMakesTheProduct : Prop :=
  (∀ hA hB c, decode (Command.toWord ⟨0x0D, 0, hA, hB, c⟩) = .ok (.bmMultiply hA hB)) ∧
  ∀ (hA hB : Handle) (s : State),
    (s.block.matOf hA = none ∨ s.block.matOf hB = none → Raises (.bmMultiply hA hB) s .handle) ∧
    ∀ A B, s.block.matOf hA = some A → s.block.matOf hB = some B →
      (A.cols ≠ B.rows → Raises (.bmMultiply hA hB) s .shape) ∧
      (A.cols = B.rows → 2 ^ 32 ≤ A.rows * B.cols → Raises (.bmMultiply hA hB) s .alloc) ∧
      (A.cols = B.rows → A.rows * B.cols < 2 ^ 32 →
        (s.grantMatrix (A.rows * B.cols) = none → ∃ t, exec (.bmMultiply hA hB) s = .next t ∧
          Answered s t (.error .alloc) none ∧ t.block = s.block ∧ DrewOnce s t) ∧
        ∀ h, s.grantMatrix (A.rows * B.cols) = some h → ∃ t, exec (.bmMultiply hA hB) s = .next t ∧
          Answered s t .ok (some h) ∧ s.block.matOf h = none ∧ h ≠ 0 ∧ h ≠ hA ∧ h ≠ hB ∧
          t.block.matOf h = some (gf2Product A B) ∧ t.block.matOf hA = some A ∧ t.block.matOf hB = some B ∧
          (∀ h', h' ≠ h → t.block.matOf h' = s.block.matOf h') ∧ t.block.vec = s.block.vec ∧ SameCaches s t ∧
          DrewOnce s t)

/-- R101: the entries of the product; it depends on the addressable entries of its operands only. -/
def Obligations.ProductEntriesAreParities : Prop :=
  ∀ A B : MatRec, (gf2Product A B).rows = A.rows ∧ (gf2Product A B).cols = B.cols ∧
    (∀ r c, r < A.rows → c < B.cols →
      (gf2Product A B).entry r c =
        (List.range A.cols).foldl (fun y k => xor y (A.entry r k && B.entry k c)) false ∧
      ((gf2Product A B).entry r c = true ↔
        (List.range A.cols).countP (fun k => A.entry r k && B.entry k c) % 2 = 1)) ∧
    ∀ A' B' : MatRec, A'.rows = A.rows → A'.cols = A.cols → B'.rows = B.rows → B'.cols = B.cols → A.cols = B.rows →
      (∀ r c, r < A.rows → c < A.cols → A'.entry r c = A.entry r c) →
      (∀ r c, r < B.rows → c < B.cols → B'.entry r c = B.entry r c) → gf2Product A' B' = gf2Product A B

/-- R102: the storage of the product: backing bit `r*n + c` is the entry, padding is 0, and there are `ceil(m*n/8)` bytes. -/
def Obligations.ProductStorageIsPacked : Prop :=
  ∀ A B : MatRec, (gf2Product A B).vec.length = A.rows * B.cols ∧
    (∀ e ∈ (gf2Product A B).vec.storage, e.1 < (A.rows * B.cols + 7) / 8) ∧
    (∀ r c, r < A.rows → c < B.cols →
      (gf2Product A B).vec.storage.readBit (r * B.cols + c) = gf2Cell A B r c) ∧
    (∀ i, A.rows * B.cols ≤ i → (gf2Product A B).vec.storage.readBit i = false) ∧
    (gf2Product A B).vec.storage.wf

/-- R103: the row-vector form: the result byte is the exclusive-or of the selected rows of `B`. -/
def Obligations.RowProductIsXorOfRows : Prop :=
  ∀ (A B : MatRec) (x : Byte), A.rows = 1 → A.cols ≤ 8 → B.cols ≤ 8 → B.rows = A.cols →
    (∀ a, a < A.cols → A.entry 0 a = x.getLsbD a) →
      (gf2Product A B).vec.storage.read 0 = xorRows A.cols x B ∧
      (∀ c, c < B.cols → (xorRows A.cols x B).getLsbD c = (gf2Product A B).entry 0 c) ∧
      ∀ a c, a < B.rows → c < 8 → (B.rowByte a).getLsbD c = (decide (c < B.cols) && B.entry a c)

/-- R104: multiply is associative, distributes over `⊕` on both sides, and a zero matrix gives a zero matrix. -/
def Obligations.MultiplyIsAssociativeAndDistributive : Prop :=
  (∀ A B C : MatRec, A.cols = B.rows → B.cols = C.rows →
    gf2Product (gf2Product A B) C = gf2Product A (gf2Product B C)) ∧
  (∀ A B C : MatRec, A.cols = B.rows → B.rows = C.rows → B.cols = C.cols →
    gf2Product A (B.add C) = (gf2Product A B).add (gf2Product A C)) ∧
  (∀ A B C : MatRec, A.rows = B.rows → A.cols = B.cols → A.cols = C.rows →
    gf2Product (A.add B) C = (gf2Product A C).add (gf2Product B C)) ∧
  (∀ (A : MatRec) (n : Nat), gf2Product A (MatRec.zero A.cols n) = MatRec.zero A.rows n) ∧
  ∀ (B : MatRec) (m : Nat), gf2Product (MatRec.zero m B.rows) B = MatRec.zero m B.cols

/-! ### The Hamming codec -/

/-- R112: `HAM_ENCODE`, with the result in closed form, and the draws each path makes (held as coming answers: log 4). -/
def Obligations.HamEncodeAnswersTheCodeword : Prop :=
  (∀ h b c, decode (Command.toWord ⟨0x0E, 0, h, b, c⟩) = .ok (.hamEncode h (b.setWidth 8))) ∧
  (∀ (G : MatRec) (n : Nibble), G.rows = 4 → G.cols = 8 →
    (gf2Product (MatRec.fromData (n.setWidth 8) 4) G).vec.storage.read 0 = xorRows 4 (n.setWidth 8) G) ∧
  ∀ (h : Handle) (msg : Byte) (s : State),
    (s.block.matOf h = none → Raises (.hamEncode h msg) s .handle) ∧
    ∀ G, s.block.matOf h = some G →
      (¬(G.rows = 4 ∧ G.cols = 8) → Raises (.hamEncode h msg) s .shape) ∧
      (G.rows = 4 → G.cols = 8 →
        ∀ (n : Nibble) (byte : Byte), n = msg.setWidth 4 →
          byte = (gf2Product (MatRec.fromData (n.setWidth 8) 4) G).vec.storage.read 0 →
          (n ≠ 0 → s.block.encRead n ≠ 0 → ∃ t, exec (.hamEncode h msg) s = .next t ∧
            Answered s t .ok (some ((s.block.encRead n).setWidth 32)) ∧ t.block = s.block ∧ DrewNothing s t) ∧
          (n = 0 ∨ s.block.encRead n = 0 → (s.drawIntermediates 4 8).1 = false →
            ∃ t, exec (.hamEncode h msg) s = .next t ∧ Answered s t (.error .alloc) none ∧ t.block = s.block ∧
              (s.grantMatrix 4 = none → DrewOnce s t) ∧ (s.grantMatrix 4 ≠ none → DrewTwice s t)) ∧
          (n = 0 ∨ s.block.encRead n = 0 → (s.drawIntermediates 4 8).1 = true →
            ∃ t, exec (.hamEncode h msg) s = .next t ∧ Answered s t .ok (some (byte.setWidth 32)) ∧
              (n = 0 → byte = 0 ∧ t.block = s.block) ∧ (n ≠ 0 → t.block.encRead n = byte) ∧
              (∀ k, k ≠ n → t.block.encRead k = s.block.encRead k) ∧
              t.block.decCache = s.block.decCache ∧ t.block.vec = s.block.vec ∧ t.block.mat = s.block.mat ∧
              DrewTwice s t))

/-- R27, R112, R114, R127: when the two intermediate draws succeed, and the draw count of each outcome: first refused,
first granted and second refused, both granted. That the first handle counts as live at the second draw is log 11, that an
answer R27 excludes counts as fail is log 5, and that a draw made is past also on an error is log 6: the model's. -/
def Obligations.IntermediateDrawsAreTwoFreshHandles : Prop :=
  ∀ (s : State) (a b : Nat),
    ((s.drawIntermediates a b).1 = true ↔ ∃ t1 t2, s.grantMatrix a = some t1 ∧
      (s.drawIntermediates a b).2 = s.afterDraw.afterDraw ∧ s.afterDraw.answer .matrix b = some t2 ∧
      t2 ≠ 0 ∧ t2 ≠ t1 ∧ s.block.matOf t2 = none) ∧
    (s.grantMatrix a = none → s.drawIntermediates a b = (false, s.afterDraw)) ∧
    (∀ t1, s.grantMatrix a = some t1 → (s.drawIntermediates a b).1 = false →
      (s.drawIntermediates a b).2 = s.afterDraw.afterDraw) ∧
    (s.drawIntermediates a b).2.block = s.block ∧ (s.drawIntermediates a b).2.responses = s.responses

/-- R115, R165: while the encode cache agrees with `G`, a successful `HAM_ENCODE` answers `enc_G` of the nibble on a miss
and on a hit, and the cache goes on agreeing; `enc_G` is linear and maps 0 to 0. -/
def Obligations.EncodeIsPureAndLinear : Prop :=
  (∀ (G : MatRec) (h : Handle) (msg : Byte) (s t : State) (v : Option (BitVec 32)), G.rows = 4 → G.cols = 8 →
    s.block.matOf h = some G → s.block.encAgrees G → exec (.hamEncode h msg) s = .next t → Answered s t .ok v →
      v = some ((encodeWith G (msg.setWidth 4)).setWidth 32) ∧ t.block.encAgrees G) ∧
  ∀ G : MatRec, G.rows = 4 → G.cols = 8 → encodeWith G 0 = 0 ∧
    (∀ n, encodeWith G n = xorRows 4 (n.setWidth 8) G) ∧
    ∀ x y : Nibble, encodeWith G (x ^^^ y) = encodeWith G x ^^^ encodeWith G y

/-- R165: a cache goes on agreeing with a matrix through every command but a codec command given another one. -/
def Obligations.CachesGoOnAgreeing : Prop :=
  ∀ (M : MatRec) (i : Instr) (s t : State), exec i s = .next t →
    (s.block.encAgrees M → (∀ h msg, i = .hamEncode h msg → s.block.matOf h = some M) → t.block.encAgrees M) ∧
    (s.block.decAgrees M → (∀ h code, i = .hamDecode h code → s.block.matOf h = some M) → t.block.decAgrees M)

/-- R115, R128: repeating a successful codec command at once answers the same, if it answers without an error. -/
def Obligations.RepeatedCodecCommandsAnswerTheSame : Prop :=
  (∀ (h : Handle) (msg : Byte) (s t u : State) (v v' : Option (BitVec 32)),
    exec (.hamEncode h msg) s = .next t → Answered s t .ok v →
    exec (.hamEncode h msg) t = .next u → Answered t u .ok v' → v' = v) ∧
  ∀ (h : Handle) (code : Byte) (s t : State) (r : Response),
    exec (.hamDecode h code) s = .next t → t.responses = s.responses ++ [r] → (∀ e, r.status ≠ .error e) →
      ∃ u, exec (.hamDecode h code) t = .next u ∧ u.responses = t.responses ++ [r] ∧ u.block = t.block ∧
        DrewNothing t u

/-- R116: the codewords of `G_REF`; the low nibble is the message, and two codewords differ in at least 4 bits. -/
def Obligations.ReferenceCodewordsAreTheTable : Prop :=
  (∀ n : Nibble, encodeWith gRef n =
    [0x00, 0xE1, 0xD2, 0x33, 0xB4, 0x55, 0x66, 0x87, 0x78, 0x99, 0xAA, 0x4B, 0xCC, 0x2D, 0x1E, 0xFF].getD n.toNat 0) ∧
  (∀ n : Nibble, (encodeWith gRef n).setWidth 4 = n) ∧
  (∀ n : Nibble, n ≠ 0 → n ≠ 15 → weight (encodeWith gRef n) = 4) ∧ weight (encodeWith gRef 15) = 8 ∧
  ∀ m n : Nibble, m ≠ n → 4 ≤ weight (encodeWith gRef m ^^^ encodeWith gRef n)

/-- R122: the correction table follows from `HT_REF`: `OK` at 0, `p` at row `p`, `ERR` at the other seven. -/
def Obligations.CorrectionTableFollowsFromHtRef : Prop :=
  correctionTable 0 = .ok ∧ (∀ p : Fin 8, correctionTable ((htRef.rowByte p.val).setWidth 4) = .pos p) ∧
  (∀ s : Nibble, correctionTable s = .err ↔ s ≠ 0 ∧ ∀ p : Fin 8, (htRef.rowByte p.val).setWidth 4 ≠ s) ∧
  ((List.range 16).countP fun k => correctionTable (BitVec.ofNat 4 k) = .err) = 7

/-- R124: `syndrome_of`, its closed form and its cache. -/
def Obligations.SyndromeIsComputedOrRecovered : Prop :=
  (∀ (H : MatRec) (code : Byte), H.rows = 8 → H.cols = 4 →
    (syndromeWith H code).setWidth 8 = xorRows 8 code H ∧
    (gf2Product (MatRec.fromData code 8) H).vec.storage.read 0 = (syndromeWith H code).setWidth 8) ∧
  ∀ (H : MatRec) (code : Byte) (s : State),
    (s.block.decRead code = 0 → (s.drawIntermediates 8 4).1 = false →
      (syndromeOf H code s).1 = none ∧ (syndromeOf H code s).2.block = s.block) ∧
    (s.block.decRead code = 0 → (s.drawIntermediates 8 4).1 = true →
      (syndromeOf H code s).1 = some (syndromeWith H code) ∧
      ((syndromeOf H code s).2.block.decRead code).toNat = (syndromeWith H code).toNat + 1 ∧
      (∀ k, k ≠ code → (syndromeOf H code s).2.block.decRead k = s.block.decRead k) ∧
      (syndromeOf H code s).2.block.encCache = s.block.encCache ∧
      (syndromeOf H code s).2.block.vec = s.block.vec ∧ (syndromeOf H code s).2.block.mat = s.block.mat) ∧
    ∀ syn : Nibble, (s.block.decRead code).toNat = syn.toNat + 1 → syndromeOf H code s = (some syn, s)

/-- R123, R125: `HAM_DECODE`: the errors, the answer the table gives for the syndrome, and the draws each path makes (held as
coming answers: log 4). -/
def Obligations.HamDecodeAnswersByTheTable : Prop :=
  (∀ h b c, decode (Command.toWord ⟨0x0F, 0, h, b, c⟩) = .ok (.hamDecode h (b.setWidth 8))) ∧
  ∀ (h : Handle) (code : Byte) (s : State),
    (s.block.matOf h = none → Raises (.hamDecode h code) s .handle) ∧
    ∀ H, s.block.matOf h = some H →
      (¬(H.rows = 8 ∧ H.cols = 4) → Raises (.hamDecode h code) s .shape) ∧
      (H.rows = 8 → H.cols = 4 →
        (s.block.decRead code = 0 → (s.drawIntermediates 8 4).1 = false → ∃ t, exec (.hamDecode h code) s = .next t ∧
          Answered s t (.error .alloc) none ∧ t.block = s.block ∧
            (s.grantMatrix 8 = none → DrewOnce s t) ∧ (s.grantMatrix 8 ≠ none → DrewTwice s t)) ∧
        ∀ syn : Nibble,
          (s.block.decRead code = 0 ∧ (s.drawIntermediates 8 4).1 = true ∧ syn = syndromeWith H code) ∨
            (s.block.decRead code).toNat = syn.toNat + 1 →
          ∃ t, exec (.hamDecode h code) s = .next t ∧
            (correctionTable syn = .ok → Answered s t .ok (some ((code &&& 0xF).setWidth 32))) ∧
            (correctionTable syn = .err → Answered s t .uncorrectable none) ∧
            (∀ p, correctionTable syn = .pos p → p.val ≤ 3 →
              Answered s t .corrected (some (((code ^^^ (1#8 <<< p.val)) &&& 0xF).setWidth 32))) ∧
            (∀ p, correctionTable syn = .pos p → 4 ≤ p.val →
              Answered s t .corrected (some ((code &&& 0xF).setWidth 32))) ∧
            t.block.vec = s.block.vec ∧ t.block.mat = s.block.mat ∧ t.block.encCache = s.block.encCache ∧
            (∀ k, k ≠ code → t.block.decRead k = s.block.decRead k) ∧
            (s.block.decRead code ≠ 0 → t.block = s.block ∧ DrewNothing s t) ∧
            (s.block.decRead code = 0 → (t.block.decRead code).toNat = syn.toNat + 1 ∧ DrewTwice s t))

/-- R129: with `G_REF` and `HT_REF`, what a decode of a codeword with error pattern `e` answers, by the weight of `e`: every
single error is corrected to the message sent, every double error is detected. -/
def Obligations.ErrorPatternsAnswerByWeight : Prop :=
  ∀ (h : Handle) (m : Nibble) (e : Byte) (s : State), s.block.matOf h = some htRef → s.block.decAgrees htRef →
    s.block.decRead (encodeWith gRef m ^^^ e) ≠ 0 ∨ (s.drawIntermediates 8 4).1 = true →
    ∃ t, exec (.hamDecode h (encodeWith gRef m ^^^ e)) s = .next t ∧ t.block.decAgrees htRef ∧
      (weight e = 0 → Answered s t .ok (some (m.setWidth 32))) ∧
      (weight e = 1 → Answered s t .corrected (some (m.setWidth 32))) ∧
      (weight e = 2 ∨ weight e = 6 → Answered s t .uncorrectable none) ∧
      (weight e = 3 ∨ weight e = 5 ∨ weight e = 7 → ∃ m' : Nibble, m' ≠ m ∧
        Answered s t .corrected (some (m'.setWidth 32))) ∧
      (weight e = 4 → (∃ n, encodeWith gRef n = e) →
        m ^^^ e.setWidth 4 ≠ m ∧ Answered s t .ok (some ((m ^^^ e.setWidth 4).setWidth 32))) ∧
      (weight e = 4 → (¬ ∃ n, encodeWith gRef n = e) → Answered s t .uncorrectable none) ∧
      (weight e = 8 → Answered s t .ok (some ((m ^^^ 15).setWidth 32)))
end

