-- ==== Sys2Proof/Laws/State.lean ====
section
/-! SUPPORT. One lemma per field per update of the state, so that no later proof unfolds a record update. -/

namespace Sys2Proof.Machine


@[simp] theorem State.setBlock_block (s : State) (b : Block) : (s.setBlock b).block = b := rfl
@[simp] theorem State.setBlock_pending (s : State) (b : Block) : (s.setBlock b).pending = s.pending := rfl
@[simp] theorem State.setBlock_responses (s : State) (b : Block) : (s.setBlock b).responses = s.responses := rfl
@[simp] theorem State.setBlock_draws (s : State) (b : Block) : (s.setBlock b).draws = s.draws := rfl
@[simp] theorem State.setBlock_drawCount (s : State) (b : Block) : (s.setBlock b).drawCount = s.drawCount := rfl

@[simp] theorem State.respond_block (s : State) (st : Status) (v : Option (BitVec 32)) : (s.respond st v).block = s.block := rfl
@[simp] theorem State.respond_pending (s : State) (st : Status) (v : Option (BitVec 32)) : (s.respond st v).pending = s.pending := rfl
@[simp] theorem State.respond_responses (s : State) (st : Status) (v : Option (BitVec 32)) : (s.respond st v).responses = s.responses ++ [⟨st, v⟩] := rfl
@[simp] theorem State.respond_draws (s : State) (st : Status) (v : Option (BitVec 32)) : (s.respond st v).draws = s.draws := rfl
@[simp] theorem State.respond_drawCount (s : State) (st : Status) (v : Option (BitVec 32)) : (s.respond st v).drawCount = s.drawCount := rfl

@[simp] theorem State.raise_block (s : State) (e : ErrorKind) : (s.raise e).block = s.block := rfl
@[simp] theorem State.raise_pending (s : State) (e : ErrorKind) : (s.raise e).pending = s.pending := rfl
@[simp] theorem State.raise_responses (s : State) (e : ErrorKind) : (s.raise e).responses = s.responses ++ [⟨.error e, none⟩] := rfl
@[simp] theorem State.raise_draws (s : State) (e : ErrorKind) : (s.raise e).draws = s.draws := rfl
@[simp] theorem State.raise_drawCount (s : State) (e : ErrorKind) : (s.raise e).drawCount = s.drawCount := rfl

@[simp] theorem State.afterDraw_block (s : State) : (s.afterDraw).block = s.block := rfl
@[simp] theorem State.afterDraw_pending (s : State) : (s.afterDraw).pending = s.pending := rfl
@[simp] theorem State.afterDraw_responses (s : State) : (s.afterDraw).responses = s.responses := rfl
@[simp] theorem State.afterDraw_draws (s : State) : (s.afterDraw).draws = s.draws.tail := rfl
@[simp] theorem State.afterDraw_drawCount (s : State) : (s.afterDraw).drawCount = s.drawCount + 1 := rfl

@[simp] theorem State.taking_block (s : State) (rest : List PortEvent) : (s.taking rest).block = s.block := rfl
@[simp] theorem State.taking_pending (s : State) (rest : List PortEvent) : (s.taking rest).pending = rest := rfl
@[simp] theorem State.taking_responses (s : State) (rest : List PortEvent) : (s.taking rest).responses = s.responses := rfl
@[simp] theorem State.taking_draws (s : State) (rest : List PortEvent) : (s.taking rest).draws = s.draws := rfl
@[simp] theorem State.taking_drawCount (s : State) (rest : List PortEvent) : (s.taking rest).drawCount = s.drawCount := rfl

@[simp] theorem State.applyReset_block (s : State) : (s.applyReset).block = Block.reset := rfl
@[simp] theorem State.applyReset_pending (s : State) : (s.applyReset).pending = s.pending := rfl
@[simp] theorem State.applyReset_responses (s : State) : (s.applyReset).responses = s.responses := rfl
@[simp] theorem State.applyReset_draws (s : State) : (s.applyReset).draws = s.draws := rfl
@[simp] theorem State.applyReset_drawCount (s : State) : (s.applyReset).drawCount = s.drawCount := rfl

@[simp] theorem Block.putVec_vec (b : Block) (h : Handle) (v : VecRec) : (b.putVec h v).vec = put b.vec h.toNat v := rfl
@[simp] theorem Block.putVec_mat (b : Block) (h : Handle) (v : VecRec) : (b.putVec h v).mat = b.mat := rfl
@[simp] theorem Block.putVec_encCache (b : Block) (h : Handle) (v : VecRec) : (b.putVec h v).encCache = b.encCache := rfl
@[simp] theorem Block.putVec_decCache (b : Block) (h : Handle) (v : VecRec) : (b.putVec h v).decCache = b.decCache := rfl

@[simp] theorem Block.delVec_vec (b : Block) (h : Handle) : (b.delVec h).vec = del b.vec h.toNat := rfl
@[simp] theorem Block.delVec_mat (b : Block) (h : Handle) : (b.delVec h).mat = b.mat := rfl
@[simp] theorem Block.delVec_encCache (b : Block) (h : Handle) : (b.delVec h).encCache = b.encCache := rfl
@[simp] theorem Block.delVec_decCache (b : Block) (h : Handle) : (b.delVec h).decCache = b.decCache := rfl

@[simp] theorem Block.putMat_vec (b : Block) (h : Handle) (m : MatRec) : (b.putMat h m).vec = b.vec := rfl
@[simp] theorem Block.putMat_mat (b : Block) (h : Handle) (m : MatRec) : (b.putMat h m).mat = put b.mat h.toNat m := rfl
@[simp] theorem Block.putMat_encCache (b : Block) (h : Handle) (m : MatRec) : (b.putMat h m).encCache = b.encCache := rfl
@[simp] theorem Block.putMat_decCache (b : Block) (h : Handle) (m : MatRec) : (b.putMat h m).decCache = b.decCache := rfl

@[simp] theorem Block.delMat_vec (b : Block) (h : Handle) : (b.delMat h).vec = b.vec := rfl
@[simp] theorem Block.delMat_mat (b : Block) (h : Handle) : (b.delMat h).mat = del b.mat h.toNat := rfl
@[simp] theorem Block.delMat_encCache (b : Block) (h : Handle) : (b.delMat h).encCache = b.encCache := rfl
@[simp] theorem Block.delMat_decCache (b : Block) (h : Handle) : (b.delMat h).decCache = b.decCache := rfl

@[simp] theorem Block.encWrite_vec (b : Block) (n : Nibble) (v : Byte) : (b.encWrite n v).vec = b.vec := rfl
@[simp] theorem Block.encWrite_mat (b : Block) (n : Nibble) (v : Byte) : (b.encWrite n v).mat = b.mat := rfl
@[simp] theorem Block.encWrite_decCache (b : Block) (n : Nibble) (v : Byte) : (b.encWrite n v).decCache = b.decCache := rfl

@[simp] theorem Block.decWrite_vec (b : Block) (n : Byte) (v : Byte) : (b.decWrite n v).vec = b.vec := rfl
@[simp] theorem Block.decWrite_mat (b : Block) (n : Byte) (v : Byte) : (b.decWrite n v).mat = b.mat := rfl
@[simp] theorem Block.decWrite_encCache (b : Block) (n : Byte) (v : Byte) : (b.decWrite n v).encCache = b.encCache := rfl

@[simp] theorem VecRec.setByte_length (v : VecRec) (j : Nat) (x : Byte) : (v.setByte j x).length = v.length := rfl
@[simp] theorem VecRec.setByte_storage (v : VecRec) (j : Nat) (x : Byte) :
    (v.setByte j x).storage = v.storage.write j x := rfl
@[simp] theorem VecRec.setBit_length (v : VecRec) (i : Nat) : (v.setBit i).length = v.length := rfl
@[simp] theorem VecRec.setBit_storage (v : VecRec) (i : Nat) : (v.setBit i).storage = v.storage.setBit i := rfl
@[simp] theorem VecRec.zero_length (n : Nat) : (VecRec.zero n).length = n := rfl
@[simp] theorem VecRec.zero_storage (n : Nat) : (VecRec.zero n).storage = [] := rfl
@[simp] theorem MatRec.setEntry_rows (m : MatRec) (r c : Nat) : (m.setEntry r c).rows = m.rows := rfl
@[simp] theorem MatRec.setEntry_cols (m : MatRec) (r c : Nat) : (m.setEntry r c).cols = m.cols := rfl
@[simp] theorem MatRec.setEntry_vec (m : MatRec) (r c : Nat) : (m.setEntry r c).vec = m.vec.setBit (m.index r c) := rfl
@[simp] theorem MatRec.zero_rows (r c : Nat) : (MatRec.zero r c).rows = r := rfl
@[simp] theorem MatRec.zero_cols (r c : Nat) : (MatRec.zero r c).cols = c := rfl
@[simp] theorem MatRec.zero_vec (r c : Nat) : (MatRec.zero r c).vec = VecRec.zero (r * c) := rfl
@[simp] theorem MatRec.fromData_rows (x : Byte) (n : Nat) : (MatRec.fromData x n).rows = 1 := rfl
@[simp] theorem MatRec.fromData_cols (x : Byte) (n : Nat) : (MatRec.fromData x n).cols = n := rfl
@[simp] theorem MatRec.fromData_vec (x : Byte) (n : Nat) :
    (MatRec.fromData x n).vec = (VecRec.zero n).setByte 0 x := rfl

end Sys2Proof.Machine
end

