-- ==== Sys2Proof/Laws/Storage.lean ====
section
/-! SUPPORT. Read after write and canonical form for lists by rising key, storage and packed bits. -/

namespace Sys2Proof.Machine

/-! ### Lists by rising key -/

@[simp] theorem lookup_nil {α : Type} (a : Nat) : lookup ([] : List (Nat × α)) a = none := rfl

theorem lookup_put {α : Type} (m : List (Nat × α)) (a : Nat) (v : α) (b : Nat) :
    lookup (put m a v) b = if b = a then some v else lookup m b := by
  induction m with
  | nil => rfl
  | cons e rest ih =>
    obtain ⟨k, w⟩ := e
    rcases Nat.lt_trichotomy a k with h | h | h
    · simp [put, h, lookup]
    · subst h; by_cases hb : b = a <;> simp [put, lookup, hb]
    · have h1 : ¬ a < k := by omega
      have h2 : a ≠ k := by omega
      by_cases hb : b = k
      · subst hb; simp [put, h1, h2, lookup, Ne.symm h2]
      · simp [put, h1, h2, lookup, hb, ih]

theorem lookup_del {α : Type} (m : List (Nat × α)) (a b : Nat) :
    lookup (del m a) b = if b = a then none else lookup m b := by
  induction m with
  | nil => simp [del]
  | cons e rest ih =>
    obtain ⟨k, w⟩ := e
    by_cases hk : k = a
    · subst hk
      have : del ((k, w) :: rest) k = del rest k := by simp [del]
      rw [this, ih]; by_cases hb : b = k <;> simp [lookup, hb]
    · have : del ((k, w) :: rest) a = (k, w) :: del rest a := by simp [del, hk]
      rw [this]
      by_cases hb : b = k
      · subst hb; simp [lookup, hk]
      · simp [lookup, hb, ih]

theorem mem_of_lookup {α : Type} {m : List (Nat × α)} {a : Nat} {v : α} (h : lookup m a = some v) : (a, v) ∈ m := by
  induction m with
  | nil => cases h
  | cons e rest ih =>
    obtain ⟨k, w⟩ := e
    by_cases hk : a = k
    · subst hk; simp_all [lookup]
    · simp only [lookup, hk, if_false] at h; exact List.mem_cons_of_mem _ (ih h)

theorem mem_put {α : Type} {m : List (Nat × α)} {a : Nat} {v : α} {e : Nat × α} (h : e ∈ put m a v) :
    e = (a, v) ∨ e ∈ m := by
  induction m with
  | nil => left; simpa [put] using h
  | cons c rest ih =>
    obtain ⟨k, w⟩ := c
    simp only [put] at h
    split at h
    · exact (List.mem_cons.mp h)
    · split at h
      · rcases List.mem_cons.mp h with h | h
        · exact .inl h
        · exact .inr (List.mem_cons_of_mem _ h)
      · rcases List.mem_cons.mp h with h | h
        · exact .inr (h ▸ List.mem_cons_self)
        · exact (ih h).imp_right (List.mem_cons_of_mem _)

theorem mem_del {α : Type} {m : List (Nat × α)} {a : Nat} {e : Nat × α} (h : e ∈ del m a) : e ∈ m :=
  (List.mem_filter.mp h).1

theorem put_rising {α : Type} {m : List (Nat × α)} (h : Rising m) (a : Nat) (v : α) : Rising (put m a v) := by
  induction m with
  | nil => simp [put]
  | cons e rest ih =>
    obtain ⟨k, w⟩ := e
    obtain ⟨hk, hrest⟩ := List.pairwise_cons.mp h
    simp only [put]
    split
    · rename_i hlt
      refine List.pairwise_cons.mpr ⟨fun x hx => ?_, h⟩
      rcases List.mem_cons.mp hx with rfl | hx
      · exact hlt
      · exact Nat.lt_trans hlt (hk x hx)
    · split
      · rename_i heq
        subst heq
        exact List.pairwise_cons.mpr ⟨hk, hrest⟩
      · refine List.pairwise_cons.mpr ⟨fun x hx => ?_, ih hrest⟩
        rcases mem_put hx with rfl | hx
        · show k < a; omega
        · exact hk x hx

theorem del_rising {α : Type} {m : List (Nat × α)} (h : Rising m) (a : Nat) : Rising (del m a) := h.filter _

/-- Two lists by rising key that list the same values are the same list: equal maps are equal data. -/
theorem rising_ext {α : Type} : {m n : List (Nat × α)} → Rising m → Rising n → (∀ a, lookup m a = lookup n a) → m = n
  | [], [], _, _, _ => rfl
  | [], (k, v) :: _, _, _, h => by have := h k; simp [lookup] at this
  | (k, v) :: _, [], _, _, h => by have := h k; simp [lookup] at this
  | (k, v) :: m, (l, w) :: n, hm, hn, h => by
    obtain ⟨hk, hm'⟩ := List.pairwise_cons.mp hm
    obtain ⟨hl, hn'⟩ := List.pairwise_cons.mp hn
    have hkl : k = l := by
      by_contra hne
      rcases Nat.lt_or_gt_of_ne hne with hlt | hlt
      · have h1 := h k
        simp only [lookup, if_true, hne, if_false] at h1
        have := hl _ (mem_of_lookup h1.symm)
        exact absurd this (by simp; omega)
      · have h1 := h l
        simp only [lookup, if_true, Ne.symm hne, if_false] at h1
        have := hk _ (mem_of_lookup h1)
        exact absurd this (by simp; omega)
    subst hkl
    have hvw : v = w := by simpa [lookup] using h k
    subst hvw
    have : m = n := rising_ext hm' hn' fun a => by
      by_cases ha : a = k
      · subst ha
        have none_of : ∀ x : List (Nat × α), (∀ e ∈ x, a < e.1) → lookup x a = none := fun x hx => by
          cases hlk : lookup x a with
          | none => rfl
          | some y => exact absurd (hx _ (mem_of_lookup hlk)) (Nat.lt_irrefl _)
        rw [none_of m hk, none_of n hl]
      · simpa [lookup, ha] using h a
    rw [this]

/-! ### Storage -/

theorem Memory.read_write (S : Memory) (a : Nat) (v : Byte) (b : Nat) :
    (S.write a v).read b = if b = a then v else S.read b := by
  unfold Memory.write Memory.read
  split
  · rename_i h; rw [lookup_del]; split <;> simp_all
  · rw [lookup_put]; split <;> simp

@[simp] theorem Memory.read_write_same (S : Memory) (a : Nat) (v : Byte) : (S.write a v).read a = v := by
  simp [Memory.read_write]

theorem Memory.read_write_other (S : Memory) {a b : Nat} (v : Byte) (h : b ≠ a) : (S.write a v).read b = S.read b := by
  simp [Memory.read_write, h]

@[simp] theorem Memory.read_nil (a : Nat) : Memory.read [] a = 0 := rfl

@[simp] theorem Memory.readBit_nil (i : Nat) : Memory.readBit [] i = false := by simp [Memory.readBit]

theorem Memory.write_wf {S : Memory} (h : S.wf) (a : Nat) (v : Byte) : (S.write a v).wf := by
  unfold Memory.write
  split
  · exact ⟨del_rising h.1 a, fun c hc => h.2 c (mem_del hc)⟩
  · rename_i hv
    refine ⟨put_rising h.1 a v, fun c hc => ?_⟩
    rcases mem_put hc with rfl | hc
    · exact hv
    · exact h.2 c hc

theorem Memory.setBit_wf {S : Memory} (h : S.wf) (i : Nat) : (S.setBit i).wf := Memory.write_wf h _ _

theorem Memory.nil_wf : Memory.wf [] := ⟨List.Pairwise.nil, by simp⟩

theorem Memory.mem_write {S : Memory} {a : Nat} {v : Byte} {c : Host.Cell} (h : c ∈ S.write a v) :
    c.1 = a ∨ c ∈ S := by
  unfold Memory.write at h
  split at h
  · exact .inr (mem_del h)
  · exact (mem_put h).imp_left (fun e => by rw [e])

theorem Memory.lookup_of_wf {S : Memory} (h : S.wf) (a : Nat) :
    lookup S a = if S.read a = Config.unlistedByte then none else some (S.read a) := by
  unfold Memory.read
  cases hl : lookup S a with
  | none => simp
  | some v => simpa using h.2 _ (mem_of_lookup hl)

/-- Two storages in canonical form that read the same at every address are the same data. -/
theorem Memory.ext {S T : Memory} (hS : S.wf) (hT : T.wf) (h : ∀ a, S.read a = T.read a) : S = T :=
  rising_ext hS.1 hT.1 fun a => by rw [Memory.lookup_of_wf hS, Memory.lookup_of_wf hT, h a]

/-- Bit `k` of byte `j` after a bit is set (R41, R83). -/
theorem Memory.getLsbD_setBit (S : Memory) (i j k : Nat) (hk : k < 8) :
    ((S.setBit i).read j).getLsbD k = (decide (8 * j + k = i) || (S.read j).getLsbD k) := by
  unfold Memory.setBit
  rw [Memory.read_write]
  split
  · rename_i h
    subst h
    rw [BitVec.getLsbD_or, BitVec.getLsbD_shiftLeft, Bool.or_comm]
    congr 1
    by_cases hi : k = i % 8
    · have : 8 * (i / 8) + k = i := by omega
      simp [hi]
      omega
    · have h1 : ¬ 8 * (i / 8) + k = i := by omega
      by_cases h2 : k < i % 8
      · simp [h1, h2]
      · have h3 : k - i % 8 ≠ 0 := by omega
        simp [h1, h3]
  · rename_i h
    have : ¬ 8 * j + k = i := by omega
    simp [this]

/-- `MemSetBit` sets bit `i` and leaves every other bit alone (R12, R86 P2). -/
theorem Memory.readBit_setBit (S : Memory) (i a : Nat) : (S.setBit i).readBit a = (decide (a = i) || S.readBit a) := by
  unfold Memory.readBit
  rw [Memory.getLsbD_setBit _ _ _ _ (Nat.mod_lt _ (by decide)), Nat.div_add_mod]

/-- Bits are the bits of bytes (R40, R41). -/
theorem Memory.readBit_mul_add (S : Memory) (j : Nat) {k : Nat} (hk : k < 8) :
    S.readBit (8 * j + k) = (S.read j).getLsbD k := by
  unfold Memory.readBit
  rw [show (8 * j + k) / 8 = j by omega, show (8 * j + k) % 8 = k by omega]

/-- Two storages in canonical form with the same bits are the same data. -/
theorem Memory.ext_bits {S T : Memory} (hS : S.wf) (hT : T.wf) (h : ∀ i, S.readBit i = T.readBit i) : S = T :=
  Memory.ext hS hT fun a => by
    refine BitVec.eq_of_getLsbD_eq fun k hk => ?_
    rw [← Memory.readBit_mul_add S a hk, ← Memory.readBit_mul_add T a hk, h]

/-! ### Packed bits -/

theorem packBits_wf (n : Nat) (f : Nat → Bool) : (packBits n f).wf := by
  induction n with
  | zero => exact Memory.nil_wf
  | succ n ih =>
    unfold packBits
    split
    · exact Memory.setBit_wf ih n
    · exact ih

/-- `packBits n f` holds `f i` at every bit `i < n` and 0 at every other bit (R102). -/
theorem readBit_packBits (n : Nat) (f : Nat → Bool) (i : Nat) :
    (packBits n f).readBit i = (decide (i < n) && f i) := by
  induction n with
  | zero => simp [packBits]
  | succ n ih =>
    unfold packBits
    by_cases hi : i = n
    · subst hi
      split <;> simp_all [Memory.readBit_setBit]
    · have : (i < n + 1) ↔ i < n := by omega
      split <;> simp [Memory.readBit_setBit, ih, hi, this]

theorem mem_packBits {n : Nat} {f : Nat → Bool} {c : Host.Cell} (h : c ∈ packBits n f) : c.1 < bytesFor n := by
  induction n with
  | zero => cases h
  | succ n ih =>
    have mono : bytesFor n ≤ bytesFor (n + 1) := Nat.div_le_div_right (by omega)
    unfold packBits at h
    split at h
    · rcases Memory.mem_write h with h | h
      · rw [h]; unfold bytesFor; omega
      · exact Nat.lt_of_lt_of_le (ih h) mono
    · exact Nat.lt_of_lt_of_le (ih h) mono

/-- Packed bits depend on the values below `n` only. -/
theorem packBits_congr {n : Nat} {f g : Nat → Bool} (h : ∀ i < n, f i = g i) : packBits n f = packBits n g := by
  induction n with
  | zero => rfl
  | succ n ih => simp only [packBits, h n (Nat.lt_succ_self n), ih fun i hi => h i (Nat.lt_succ_of_lt hi)]

/-! ### Matrices given by their entries -/

@[simp] theorem MatRec.ofEntries_rows (m n : Nat) (f : Nat → Nat → Bool) : (MatRec.ofEntries m n f).rows = m := rfl
@[simp] theorem MatRec.ofEntries_cols (m n : Nat) (f : Nat → Nat → Bool) : (MatRec.ofEntries m n f).cols = n := rfl
@[simp] theorem MatRec.ofEntries_length (m n : Nat) (f : Nat → Nat → Bool) :
    (MatRec.ofEntries m n f).vec.length = m * n := rfl

/-- The entries of a matrix given by its entries, in range (R45, R102). -/
theorem MatRec.entry_ofEntries {m n r c : Nat} (f : Nat → Nat → Bool) (hr : r < m) (hc : c < n) :
    (MatRec.ofEntries m n f).entry r c = f r c := by
  have hlt : r * n + c < m * n := by
    calc r * n + c < r * n + n := by omega
      _ = (r + 1) * n := by rw [Nat.add_mul, Nat.one_mul]
      _ ≤ m * n := Nat.mul_le_mul_right n hr
  have h1 : (r * n + c) / n = r := by
    rw [Nat.mul_comm, Nat.mul_add_div (by omega), Nat.div_eq_of_lt hc, Nat.add_zero]
  have h2 : (r * n + c) % n = c := by
    rw [Nat.mul_comm, Nat.mul_add_mod, Nat.mod_eq_of_lt hc]
  show (packBits (m * n) _).readBit (r * n + c) = _
  rw [readBit_packBits]
  simp [hlt, h1, h2]

/-- Matrices given by entries that agree in range are the same record. -/
theorem MatRec.ofEntries_congr {m n : Nat} {f g : Nat → Nat → Bool} (h : ∀ r < m, ∀ c < n, f r c = g r c) :
    MatRec.ofEntries m n f = MatRec.ofEntries m n g := by
  unfold MatRec.ofEntries
  congr 2
  refine packBits_congr fun i hi => ?_
  have hn : 0 < n := Nat.pos_of_ne_zero fun h0 => by simp [h0] at hi
  exact h _ (Nat.div_lt_of_lt_mul (by rwa [Nat.mul_comm] at hi)) _ (Nat.mod_lt _ hn)

theorem VecRec.zero_wf {n : Nat} (h : n < Config.bitLimit) : (VecRec.zero n).wf := ⟨h, Memory.nil_wf, by simp⟩

theorem VecRec.setByte_wf {v : VecRec} (h : v.wf) {j : Nat} (hj : v.hasByte j) (x : Byte) : (v.setByte j x).wf :=
  ⟨h.1, Memory.write_wf h.2.1 j x, fun c hc => by
    rcases Memory.mem_write hc with hc | hc
    · rw [hc]; exact hj
    · exact h.2.2 c hc⟩

theorem VecRec.setBit_wf {v : VecRec} (h : v.wf) {i : Nat} (hi : v.hasBit i) : (v.setBit i).wf :=
  ⟨h.1, Memory.setBit_wf h.2.1 i, fun c hc => by
    rcases Memory.mem_write hc with hc | hc
    · rw [hc]; show i / 8 < (v.length + 7) / 8; unfold VecRec.hasBit at hi; omega
    · exact h.2.2 c hc⟩

/-- `r*cols + c < rows*cols` in range: the index computation never overflows (R45). -/
theorem MatRec.index_lt {m : MatRec} {r c : Nat} (h : m.hasEntry r c) : m.index r c < m.rows * m.cols := by
  obtain ⟨hr, hc⟩ := h
  unfold MatRec.index
  calc r * m.cols + c < r * m.cols + m.cols := by omega
    _ = (r + 1) * m.cols := by rw [Nat.add_mul, Nat.one_mul]
    _ ≤ m.rows * m.cols := Nat.mul_le_mul_right _ hr

theorem MatRec.zero_wf {r c : Nat} (hr : r < Config.bitLimit) (hc : c < Config.bitLimit) (h : sizeFits r c) :
    (MatRec.zero r c).wf := ⟨hr, hc, rfl, VecRec.zero_wf h⟩

theorem MatRec.setEntry_wf {m : MatRec} (h : m.wf) {r c : Nat} (hrc : m.hasEntry r c) : (m.setEntry r c).wf :=
  ⟨h.1, h.2.1, h.2.2.1, VecRec.setBit_wf h.2.2.2 (by unfold VecRec.hasBit; rw [h.2.2.1]; exact MatRec.index_lt hrc)⟩

theorem MatRec.fromData_wf (x : Byte) {n : Nat} (h0 : n ≠ 0) (hn : n < Config.bitLimit) : (MatRec.fromData x n).wf :=
  ⟨(by decide : 1 < Config.bitLimit), hn, (Nat.one_mul n).symm, VecRec.setByte_wf (VecRec.zero_wf hn)
    (by show 0 < (n + 7) / 8; omega) x⟩

theorem MatRec.ofEntries_wf {m n : Nat} (f : Nat → Nat → Bool) (hm : m < Config.bitLimit) (hn : n < Config.bitLimit)
    (h : sizeFits m n) : (MatRec.ofEntries m n f).wf :=
  ⟨hm, hn, rfl, h, packBits_wf _ _, fun _ hc => mem_packBits hc⟩

end Sys2Proof.Machine
end

