-- ==== Sys2Proof/Laws/Block.lean ====
section
/-! SUPPORT. What each block update does to what can be read of the block, and that it keeps the invariants. -/

namespace Sys2Proof.Machine

/-! ### Reads after updates -/

theorem toNat_eq_iff {h h' : Handle} : h'.toNat = h.toNat ↔ h' = h := BitVec.toNat_inj

theorem Block.vecOf_putVec (b : Block) (h : Handle) (v : VecRec) (h' : Handle) :
    (b.putVec h v).vecOf h' = if h' = h then some v else b.vecOf h' := by
  simp [Block.vecOf, lookup_put, toNat_eq_iff]

theorem Block.vecOf_delVec (b : Block) (h h' : Handle) :
    (b.delVec h).vecOf h' = if h' = h then none else b.vecOf h' := by
  simp [Block.vecOf, lookup_del, toNat_eq_iff]

theorem Block.matOf_putMat (b : Block) (h : Handle) (m : MatRec) (h' : Handle) :
    (b.putMat h m).matOf h' = if h' = h then some m else b.matOf h' := by
  simp [Block.matOf, lookup_put, toNat_eq_iff]

theorem Block.matOf_delMat (b : Block) (h h' : Handle) :
    (b.delMat h).matOf h' = if h' = h then none else b.matOf h' := by
  simp [Block.matOf, lookup_del, toNat_eq_iff]

@[simp] theorem Block.matOf_putVec (b : Block) (h : Handle) (v : VecRec) (h' : Handle) :
    (b.putVec h v).matOf h' = b.matOf h' := rfl
@[simp] theorem Block.matOf_delVec (b : Block) (h h' : Handle) : (b.delVec h).matOf h' = b.matOf h' := rfl
@[simp] theorem Block.vecOf_putMat (b : Block) (h : Handle) (m : MatRec) (h' : Handle) :
    (b.putMat h m).vecOf h' = b.vecOf h' := rfl
@[simp] theorem Block.vecOf_delMat (b : Block) (h h' : Handle) : (b.delMat h).vecOf h' = b.vecOf h' := rfl
@[simp] theorem Block.vecOf_encWrite (b : Block) (n : Nibble) (x : Byte) (h : Handle) :
    (b.encWrite n x).vecOf h = b.vecOf h := rfl
@[simp] theorem Block.matOf_encWrite (b : Block) (n : Nibble) (x : Byte) (h : Handle) :
    (b.encWrite n x).matOf h = b.matOf h := rfl
@[simp] theorem Block.vecOf_decWrite (b : Block) (k x : Byte) (h : Handle) : (b.decWrite k x).vecOf h = b.vecOf h := rfl
@[simp] theorem Block.matOf_decWrite (b : Block) (k x : Byte) (h : Handle) : (b.decWrite k x).matOf h = b.matOf h := rfl

@[simp] theorem Block.encRead_putVec (b : Block) (h : Handle) (v : VecRec) (n : Nibble) :
    (b.putVec h v).encRead n = b.encRead n := rfl
@[simp] theorem Block.encRead_delVec (b : Block) (h : Handle) (n : Nibble) : (b.delVec h).encRead n = b.encRead n := rfl
@[simp] theorem Block.encRead_putMat (b : Block) (h : Handle) (m : MatRec) (n : Nibble) :
    (b.putMat h m).encRead n = b.encRead n := rfl
@[simp] theorem Block.encRead_delMat (b : Block) (h : Handle) (n : Nibble) : (b.delMat h).encRead n = b.encRead n := rfl
@[simp] theorem Block.encRead_decWrite (b : Block) (k x : Byte) (n : Nibble) :
    (b.decWrite k x).encRead n = b.encRead n := rfl
@[simp] theorem Block.decRead_putVec (b : Block) (h : Handle) (v : VecRec) (k : Byte) :
    (b.putVec h v).decRead k = b.decRead k := rfl
@[simp] theorem Block.decRead_delVec (b : Block) (h : Handle) (k : Byte) : (b.delVec h).decRead k = b.decRead k := rfl
@[simp] theorem Block.decRead_putMat (b : Block) (h : Handle) (m : MatRec) (k : Byte) :
    (b.putMat h m).decRead k = b.decRead k := rfl
@[simp] theorem Block.decRead_delMat (b : Block) (h : Handle) (k : Byte) : (b.delMat h).decRead k = b.decRead k := rfl
@[simp] theorem Block.decRead_encWrite (b : Block) (n : Nibble) (x : Byte) (k : Byte) :
    (b.encWrite n x).decRead k = b.decRead k := rfl

theorem Block.encRead_encWrite (b : Block) (n : Nibble) (x : Byte) (n' : Nibble) :
    (b.encWrite n x).encRead n' = if n' = n then x else b.encRead n' := by
  unfold Block.encRead Block.encWrite
  rw [Vector.getElem_set]
  by_cases h : n' = n
  · simp [h]
  · have : n.toNat ≠ n'.toNat := fun e => h (BitVec.eq_of_toNat_eq e.symm)
    simp [h, this]

theorem Block.decRead_decWrite (b : Block) (k x k' : Byte) :
    (b.decWrite k x).decRead k' = if k' = k then x else b.decRead k' := by
  unfold Block.decRead Block.decWrite
  rw [Vector.getElem_set]
  by_cases h : k' = k
  · simp [h]
  · have : k.toNat ≠ k'.toNat := fun e => h (BitVec.eq_of_toNat_eq e.symm)
    simp [h, this]

@[simp] theorem Block.reset_vecOf (h : Handle) : Block.reset.vecOf h = none := rfl
@[simp] theorem Block.reset_matOf (h : Handle) : Block.reset.matOf h = none := rfl
@[simp] theorem Block.reset_encRead (n : Nibble) : Block.reset.encRead n = 0 := by
  simp [Block.encRead, Block.reset]
@[simp] theorem Block.reset_decRead (k : Byte) : Block.reset.decRead k = 0 := by
  simp [Block.decRead, Block.reset]

/-! ### Records of live objects -/

theorem Block.Inv.vec_wf {b : Block} (hb : b.Inv) {h : Handle} {v : VecRec} (hv : b.vecOf h = some v) : v.wf :=
  hb.2.1 _ (mem_of_lookup hv)

theorem Block.Inv.mat_wf {b : Block} (hb : b.Inv) {h : Handle} {m : MatRec} (hm : b.matOf h = some m) : m.wf :=
  hb.2.2.2.1 _ (mem_of_lookup hm)

/-- `NULL` is never live (R27). -/
theorem Block.Inv.null_vec {b : Block} (hb : b.Inv) : b.vecOf nullHandle = none := by
  cases h : b.vecOf nullHandle with
  | none => rfl
  | some v => exact absurd (hb.1.2 _ (mem_of_lookup h)).1 (Nat.lt_irrefl 0)

theorem Block.Inv.null_mat {b : Block} (hb : b.Inv) : b.matOf nullHandle = none := by
  cases h : b.matOf nullHandle with
  | none => rfl
  | some v => exact absurd (hb.2.2.1.2 _ (mem_of_lookup h)).1 (Nat.lt_irrefl 0)

/-! ### The invariants are kept by each update -/

theorem Pool.put_wf {α : Type} {p : Pool α} (hp : Pool.wf p) {h : Handle} (h0 : h ≠ nullHandle) (x : α) :
    Pool.wf (put p h.toNat x) :=
  ⟨put_rising hp.1 _ _, fun e he => by
    rcases mem_put he with rfl | he
    · refine ⟨Nat.pos_of_ne_zero fun e => h0 (BitVec.eq_of_toNat_eq (by simpa using e)), h.isLt⟩
    · exact hp.2 e he⟩

theorem Pool.del_wf {α : Type} {p : Pool α} (hp : Pool.wf p) (a : Nat) : Pool.wf (del p a) :=
  ⟨del_rising hp.1 a, fun e he => hp.2 e (mem_del he)⟩

theorem Block.putVec_inv {b : Block} (hb : b.Inv) {h : Handle} (h0 : h ≠ nullHandle) {v : VecRec} (hv : v.wf) :
    (b.putVec h v).Inv :=
  ⟨Pool.put_wf hb.1 h0 v, fun e he => by
    rcases mem_put he with rfl | he
    · exact hv
    · exact hb.2.1 e he, hb.2.2⟩

theorem Block.delVec_inv {b : Block} (hb : b.Inv) (h : Handle) : (b.delVec h).Inv :=
  ⟨Pool.del_wf hb.1 _, fun e he => hb.2.1 e (mem_del he), hb.2.2⟩

theorem Block.putMat_inv {b : Block} (hb : b.Inv) {h : Handle} (h0 : h ≠ nullHandle) {m : MatRec} (hm : m.wf) :
    (b.putMat h m).Inv :=
  ⟨hb.1, hb.2.1, Pool.put_wf hb.2.2.1 h0 m, fun e he => by
    rcases mem_put he with rfl | he
    · exact hm
    · exact hb.2.2.2.1 e he, hb.2.2.2.2⟩

theorem Block.delMat_inv {b : Block} (hb : b.Inv) (h : Handle) : (b.delMat h).Inv :=
  ⟨hb.1, hb.2.1, Pool.del_wf hb.2.2.1 _, fun e he => hb.2.2.2.1 e (mem_del he), hb.2.2.2.2⟩

theorem Block.encWrite_inv {b : Block} (hb : b.Inv) {n : Nibble} (hn : n ≠ 0) (x : Byte) : (b.encWrite n x).Inv :=
  ⟨hb.1, hb.2.1, hb.2.2.1, hb.2.2.2.1, by
    rw [Block.encRead_encWrite, if_neg (Ne.symm hn)]; exact hb.2.2.2.2.1, hb.2.2.2.2.2⟩

theorem Block.decWrite_inv {b : Block} (hb : b.Inv) (k : Byte) {x : Byte} (hx : x.toNat ≤ 16) : (b.decWrite k x).Inv :=
  ⟨hb.1, hb.2.1, hb.2.2.1, hb.2.2.2.1, hb.2.2.2.2.1, fun k' => by
    rw [Block.decRead_decWrite]; split
    · exact hx
    · exact hb.2.2.2.2.2 k'⟩

end Sys2Proof.Machine
end

