-- ==== Sys2Proof/Laws/Draw.lean ====
section
/-! SUPPORT. What an allocation draw can answer and what it leaves alone (spec/10_state.md R27). -/

namespace Sys2Proof.Machine

theorem admitted_eq_some {live : Handle → Bool} {a : Option Handle} {h : Handle} :
    admitted live a = some h ↔ a = some h ∧ h ≠ nullHandle ∧ live h = false := by
  cases a with
  | none => simp [admitted]
  | some g =>
    by_cases hg : g = nullHandle ∨ live g = true
    · simp only [admitted, hg, if_true, reduceCtorEq, false_iff]
      rintro ⟨h1, h2, h3⟩
      cases h1
      rcases hg with hg | hg
      · exact h2 hg
      · simp [hg] at h3
    · obtain ⟨h0, hl⟩ := not_or.mp hg
      simp only [admitted, hg, if_false, Option.some.injEq]
      exact ⟨fun e => e ▸ ⟨rfl, h0, by simpa using hl⟩, fun e => e.1⟩

theorem Block.vecLive_eq_false {b : Block} {h : Handle} : b.vecLive h = false ↔ b.vecOf h = none := by
  simp [Block.vecLive]

theorem Block.matLive_eq_false {b : Block} {h : Handle} : b.matLive h = false ↔ b.matOf h = none := by
  simp [Block.matLive]

/-- A granted vector handle is the environment's answer, is not `NULL`, and was not live. -/
theorem State.grantVector_eq_some {s : State} {bits : Nat} {h : Handle} :
    s.grantVector bits = some h ↔
      s.answer .vector bits = some h ∧ h ≠ nullHandle ∧ s.block.vecOf h = none := by
  rw [State.grantVector, admitted_eq_some, Block.vecLive_eq_false]

/-- A granted matrix handle is the environment's answer, is not `NULL`, and was not live. -/
theorem State.grantMatrix_eq_some {s : State} {bits : Nat} {h : Handle} :
    s.grantMatrix bits = some h ↔
      s.answer .matrix bits = some h ∧ h ≠ nullHandle ∧ s.block.matOf h = none := by
  rw [State.grantMatrix, admitted_eq_some, Block.matLive_eq_false]

/-- Everything the two draws of a codec command can do: one draw was made and refused, or the first was granted and two
were made. -/
theorem State.drawIntermediates_cases (s : State) (a b : Nat) :
    (s.grantMatrix a = none ∧ s.drawIntermediates a b = (false, s.afterDraw)) ∨
    ∃ t1 ok, s.grantMatrix a = some t1 ∧ s.drawIntermediates a b = (ok, s.afterDraw.afterDraw) := by
  unfold State.drawIntermediates
  split
  · next h => exact .inl ⟨h, rfl⟩
  · next t1 h => split <;> exact .inr ⟨t1, _, h, rfl⟩

@[simp] theorem State.drawIntermediates_block (s : State) (a b : Nat) : (s.drawIntermediates a b).2.block = s.block := by
  rcases s.drawIntermediates_cases a b with ⟨-, h⟩ | ⟨_, _, -, h⟩ <;> rw [h] <;> rfl

@[simp] theorem State.drawIntermediates_pending (s : State) (a b : Nat) :
    (s.drawIntermediates a b).2.pending = s.pending := by
  rcases s.drawIntermediates_cases a b with ⟨-, h⟩ | ⟨_, _, -, h⟩ <;> rw [h] <;> rfl

@[simp] theorem State.drawIntermediates_responses (s : State) (a b : Nat) :
    (s.drawIntermediates a b).2.responses = s.responses := by
  rcases s.drawIntermediates_cases a b with ⟨-, h⟩ | ⟨_, _, -, h⟩ <;> rw [h] <;> rfl

/-- Both draws are granted exactly when both answers are admissible, the second with the first handle live. -/
theorem State.drawIntermediates_granted (s : State) (a b : Nat) :
    (s.drawIntermediates a b).1 = true ↔
      ∃ t1 t2, s.grantMatrix a = some t1 ∧ s.afterDraw.answer .matrix b = some t2 ∧
        t2 ≠ nullHandle ∧ t2 ≠ t1 ∧ s.block.matOf t2 = none := by
  unfold State.drawIntermediates
  cases h1 : s.grantMatrix a with
  | none => simp
  | some t1 =>
    cases h2 : admitted (fun h => h == t1 || s.block.matLive h) (s.afterDraw.answer .matrix b) with
    | none =>
      simp only [h2, Bool.false_eq_true, false_iff, not_exists]
      rintro t1' t2 ⟨ht, ha, h0, hne, hl⟩
      cases ht
      have := (admitted_eq_some (live := fun h => h == t1 || s.block.matLive h)).mpr
        ⟨ha, h0, by simp [hne, Block.matLive, hl]⟩
      rw [h2] at this; cases this
    | some t2 =>
      obtain ⟨ha, h0, hl⟩ := admitted_eq_some.mp h2
      simp only [Bool.or_eq_false_iff, beq_eq_false_iff_ne, Block.matLive_eq_false] at hl
      simp only [h2, true_iff]
      exact ⟨t1, t2, rfl, ha, h0, hl.1, hl.2⟩

end Sys2Proof.Machine
end

