-- ==== Sys2Proof/Laws/Encoding.lean ====
section
/-! SUPPORT. The fields of a command word and of a response word, and the byte operand's field. -/

namespace Sys2Proof

theorem Command.getLsbD_toWord (k : Command) (i : Nat) :
    k.toWord.getLsbD i =
      if i < 8 then k.op.getLsbD i
      else if i < 32 then k.rsv.getLsbD (i - 8)
      else if i < 64 then k.a.getLsbD (i - 32)
      else if i < 96 then k.b.getLsbD (i - 64)
      else k.c.getLsbD (i - 96) := by
  unfold Command.toWord
  simp only [BitVec.getLsbD_append]
  repeat' split
  all_goals first | omega | rfl

/-- Taking the fields of a word made of fields gives the fields back (R60). -/
@[simp] theorem Command.ofWord_toWord (k : Command) : Command.ofWord k.toWord = k := by
  obtain ⟨op, rsv, a, b, c⟩ := k
  unfold Command.ofWord
  congr 1 <;>
  · refine BitVec.eq_of_getLsbD_eq fun i hi => ?_
    rw [BitVec.getLsbD_extractLsb', Command.getLsbD_toWord]
    simp only [hi, decide_true, Bool.true_and]
    repeat' split
    all_goals first | omega | (congr 1; omega)

/-- A word is made of its fields (R60). -/
@[simp] theorem Command.toWord_ofWord (w : CmdWord) : (Command.ofWord w).toWord = w := by
  refine BitVec.eq_of_getLsbD_eq fun i hi => ?_
  rw [Command.getLsbD_toWord]
  unfold Command.ofWord
  simp only [BitVec.getLsbD_extractLsb']
  repeat' split
  all_goals rw [show decide _ = true from decide_eq_true (by omega), Bool.true_and]; congr 1; omega

@[simp] theorem lowByte_byteField (x : Byte) : lowByte (byteField x) = x := by
  refine BitVec.eq_of_getLsbD_eq fun i hi => ?_
  simp [lowByte, byteField, hi]
  omega

@[simp] theorem byteField_lowByte (x : BitVec 32) : byteField (lowByte x) = x &&& 0xFF := by
  refine BitVec.eq_of_getLsbD_eq fun i hi => ?_
  have h : ∀ i < 32, (255 : BitVec 32).getLsbD i = decide (i < 8) := by decide
  simp only [byteField, lowByte, BitVec.truncate_eq_setWidth, BitVec.getLsbD_setWidth, BitVec.getLsbD_extractLsb',
    BitVec.getLsbD_and, h i hi, hi, decide_true, Bool.true_and, Nat.zero_add]
  exact Bool.and_comm _ _

theorem lowByte_eq_setWidth (x : BitVec 32) : lowByte x = x.setWidth 8 := by
  refine BitVec.eq_of_getLsbD_eq fun i hi => ?_
  simp [lowByte, hi]

/-- Decoding a word made of fields looks at the fields only. -/
@[simp] theorem decode_toWord (k : Command) : decode k.toWord = decodeCommand k := by
  rw [decode, Command.ofWord_toWord]

namespace Machine

theorem nibbleOf_eq_setWidth (x : Byte) : nibbleOf x = x.setWidth 4 := by
  refine BitVec.eq_of_getLsbD_eq fun i hi => ?_
  simp [nibbleOf, hi]

/-- A bit of a byte as a value, by division (R10, R62). -/
theorem valOfBit_getLsbD (x : Byte) (k : Nat) : valOfBit (x.getLsbD k) = BitVec.ofNat 32 (x.toNat / 2 ^ k % 2) := by
  unfold valOfBit BitVec.getLsbD Nat.testBit
  rw [Nat.shiftRight_eq_div_pow, Nat.one_and_eq_mod_two]
  rcases Nat.mod_two_eq_zero_or_one (x.toNat / 2 ^ k) with h | h <;> simp [h]

/-- The three fields of a response word (R62). -/
theorem Response.toWord_fields (r : Response) :
    r.toWord.extractLsb' 0 8 = r.status.code ∧ r.toWord.extractLsb' 8 24 = 0 ∧
      r.toWord.extractLsb' 32 32 = r.val.getD 0 := by
  have h : ∀ i, r.toWord.getLsbD i = if i < 8 then r.status.code.getLsbD i
      else if i < 32 then false else (r.val.getD 0).getLsbD (i - 32) := by
    intro i
    unfold Response.toWord
    simp only [BitVec.getLsbD_append]
    repeat' split
    all_goals first | omega | rfl | exact BitVec.getLsbD_zero
  refine ⟨?_, ?_, ?_⟩ <;>
  · refine BitVec.eq_of_getLsbD_eq fun i hi => ?_
    rw [BitVec.getLsbD_extractLsb', h]
    simp only [hi, decide_true, Bool.true_and]
    repeat' split
    all_goals first | omega | simp

end Machine

end Sys2Proof
end

