-- ==== Sys2Proof/Laws/Meanings.lean ====
section
/-! SUPPORT. What a command can do, said once: the change it makes to the block and the one response it gives. Invariants
and frames are derived from this and never unfold the meanings again. -/

namespace Sys2Proof.Machine

/-- What command `i` can do: the change it makes to the block and the response it gives (R25, R26, R28, R29, R142). An
error response carries no value and goes with no change; `OK` carries a value when the command has a result (R63); a status that is neither `OK` nor an error comes from
`HAM_DECODE`, by the correction table. -/
inductive Effect (i : Instr) (b : Block) : Block → Response → Prop where
  | error (e : ErrorKind) : e ≠ .illegal → Effect i b b ⟨.error e, none⟩
  | read (x : BitVec 32) : i.hasResult = true → Effect i b b ⟨.ok, some x⟩
  | decoded (h : Handle) (k : Byte) (syn : Nibble) : i = .hamDecode h k →
      Effect i b b (correct (correctionTable syn) k)
  | newVec (h : Handle) (n : Idx) : i = .bvCreate n → h ≠ nullHandle → b.vecOf h = none →
      Effect i b (b.putVec h (VecRec.zero n.toNat)) ⟨.ok, some h⟩
  | delVec (h : Handle) : i = .bvDelete h → Effect i b (b.delVec h) ⟨.ok, none⟩
  | setVecBit (h : Handle) (v : VecRec) (k : Idx) : i = .bvSetBit h k → b.vecOf h = some v → v.hasBit k.toNat →
      Effect i b (b.putVec h (v.setBit k.toNat)) ⟨.ok, none⟩
  | setVecByte (h : Handle) (v : VecRec) (j : Idx) (x : Byte) : i = .bvSetByte h j x → b.vecOf h = some v →
      v.hasByte j.toNat → Effect i b (b.putVec h (v.setByte j.toNat x)) ⟨.ok, none⟩
  | newMat (h : Handle) (m : MatRec) : i.isMatrixCommand = true → i.hasResult = true → h ≠ nullHandle → b.matOf h = none →
      (b.Inv → m.wf) → Effect i b (b.putMat h m) ⟨.ok, some h⟩
  | delMat (h : Handle) : i = .bmDelete h → Effect i b (b.delMat h) ⟨.ok, none⟩
  | setMatBit (h : Handle) (m : MatRec) (r c : Idx) : i = .bmSetBit h r c → b.matOf h = some m →
      m.hasEntry r.toNat c.toNat → Effect i b (b.putMat h (m.setEntry r.toNat c.toNat)) ⟨.ok, none⟩
  | encWrite (h : Handle) (G : MatRec) (msg : Byte) : i = .hamEncode h msg → b.matOf h = some G →
      nibbleOf msg ≠ 0 → b.encRead (nibbleOf msg) = 0 →
      Effect i b (b.encWrite (nibbleOf msg) (encodeWith G (nibbleOf msg)))
        ⟨.ok, some (valOfByte (encodeWith G (nibbleOf msg)))⟩
  | decWrite (h : Handle) (H : MatRec) (k : Byte) : i = .hamDecode h k → b.matOf h = some H → b.decRead k = 0 →
      Effect i b (b.decWrite k (biased (syndromeWith H k))) (correct (correctionTable (syndromeWith H k)) k)

/-- One response, the input port untouched, and an effect on the block: what every command's next state has. -/
def Answers (i : Instr) (s t : State) : Prop :=
  t.pending = s.pending ∧ ∃ r, t.responses = s.responses ++ [r] ∧ Effect i s.block t.block r

theorem Answers.raise {i : Instr} {s u : State} (hp : u.pending = s.pending) (hr : u.responses = s.responses)
    (hb : u.block = s.block) {e : ErrorKind} (he : e ≠ .illegal) : Answers i s (u.raise e) :=
  ⟨by simp [hp], ⟨.error e, none⟩, by simp [hr], by simpa [hb] using Effect.error e he⟩

theorem Answers.respond {i : Instr} {s u : State} (hp : u.pending = s.pending) (hr : u.responses = s.responses)
    {st : Status} {v : Option (BitVec 32)} (hb : Effect i s.block u.block ⟨st, v⟩) : Answers i s (u.respond st v) :=
  ⟨by simp [hp], ⟨st, v⟩, by simp [hr], by simpa using hb⟩

theorem Answers.act {i : Instr} {s u : State} (hp : u.pending = s.pending) (hr : u.responses = s.responses)
    {st : Status} {v : Option (BitVec 32)} {b : Block} (hb : Effect i s.block b ⟨st, v⟩) :
    Answers i s ((u.setBlock b).respond st v) :=
  ⟨by simp [hp], ⟨st, v⟩, by simp [hr], by simpa using hb⟩

theorem correct_not_error (entry : Correction) (code : Byte) (e : ErrorKind) : (correct entry code).status ≠ .error e := by
  unfold correct
  split
  · simp
  · simp
  · split <;> simp

theorem biased_le (syn : Nibble) : (biased syn).toNat ≤ 16 := by
  have := syn.isLt
  simp [biased, byteOfNibble, BitVec.toNat_add]
  omega

/-- The syndrome comes back from what the cache holds (R124). -/
theorem unbiased_biased (syn : Nibble) : unbiased (biased syn) = syn := by
  revert syn
  decide

/-- `syndrome_of` (R124): on a miss it draws and, when both draws are granted, stores; on a hit it changes nothing. -/
theorem syndromeOf_cases (H : MatRec) (code : Byte) (s : State) :
    (∃ u, syndromeOf H code s = (none, u) ∧ u.pending = s.pending ∧ u.responses = s.responses ∧ u.block = s.block) ∨
    (∃ u, syndromeOf H code s = (some (syndromeWith H code), u) ∧ u.pending = s.pending ∧ u.responses = s.responses ∧
      s.block.decRead code = 0 ∧ u.block = s.block.decWrite code (biased (syndromeWith H code))) ∨
    (s.block.decRead code ≠ 0 ∧ syndromeOf H code s = (some (unbiased (s.block.decRead code)), s)) := by
  unfold syndromeOf
  have hb := s.drawIntermediates_block 8 4
  have hp := s.drawIntermediates_pending 8 4
  have hr := s.drawIntermediates_responses 8 4
  split
  · rename_i hmiss
    split <;> rename_i u hu <;> rw [hu] at hb hp hr
    · exact .inl ⟨u, rfl, hp, hr, hb⟩
    · exact .inr (.inl ⟨_, rfl, by simpa using hp, by simpa using hr, hmiss, by
        rw [State.setBlock_block, show u.block = s.block from hb]⟩)
  · rename_i hhit
    exact .inr (.inr ⟨hhit, rfl⟩)

theorem execBvCreate_answers {n : Idx} {s t : State} (h : execBvCreate n s = .next t) : Answers (.bvCreate n) s t := by
  unfold execBvCreate at h
  injection h with h
  subst h
  split
  · exact .raise rfl rfl rfl (by simp)
  · rename_i g hg
    obtain ⟨-, h0, hfree⟩ := State.grantVector_eq_some.mp hg
    exact .act rfl rfl (.newVec g n rfl h0 hfree)

theorem execBvDelete_answers {h : Handle} {s t : State} (he : execBvDelete h s = .next t) : Answers (.bvDelete h) s t := by
  unfold execBvDelete at he
  injection he with he
  subst he
  split
  · exact .raise rfl rfl rfl (by simp)
  · exact .act rfl rfl (.delVec h rfl)

theorem execBvGetBit_answers {h : Handle} {i : Idx} {s t : State} (he : execBvGetBit h i s = .next t) : Answers (.bvGetBit h i) s t := by
  unfold execBvGetBit at he
  injection he with he
  subst he
  split
  · exact .raise rfl rfl rfl (by simp)
  · split
    · exact .respond rfl rfl (.read _ rfl)
    · exact .raise rfl rfl rfl (by simp)

theorem execBvSetBit_answers {h : Handle} {i : Idx} {s t : State} (he : execBvSetBit h i s = .next t) : Answers (.bvSetBit h i) s t := by
  unfold execBvSetBit at he
  injection he with he
  subst he
  split
  · exact .raise rfl rfl rfl (by simp)
  · rename_i v hv
    split
    · rename_i hi
      exact .act rfl rfl (.setVecBit h v i rfl hv hi)
    · exact .raise rfl rfl rfl (by simp)

theorem execBvGetByte_answers {h : Handle} {j : Idx} {s t : State} (he : execBvGetByte h j s = .next t) :
    Answers (.bvGetByte h j) s t := by
  unfold execBvGetByte at he
  injection he with he
  subst he
  split
  · exact .raise rfl rfl rfl (by simp)
  · split
    · exact .respond rfl rfl (.read _ rfl)
    · exact .raise rfl rfl rfl (by simp)

theorem execBvSetByte_answers {h : Handle} {j : Idx} {x : Byte} {s t : State}
    (he : execBvSetByte h j x s = .next t) : Answers (.bvSetByte h j x) s t := by
  unfold execBvSetByte at he
  injection he with he
  subst he
  split
  · exact .raise rfl rfl rfl (by simp)
  · rename_i v hv
    split
    · rename_i hj
      exact .act rfl rfl (.setVecByte h v j x rfl hv hj)
    · exact .raise rfl rfl rfl (by simp)

theorem execBmCreate_answers {r c : Idx} {s t : State} (he : execBmCreate r c s = .next t) : Answers (.bmCreate r c) s t := by
  unfold execBmCreate at he
  injection he with he
  subst he
  split
  · rename_i hfit
    split
    · exact .raise rfl rfl rfl (by simp)
    · rename_i g hg
      obtain ⟨-, h0, hfree⟩ := State.grantMatrix_eq_some.mp hg
      exact .act rfl rfl (.newMat g _ rfl rfl h0 hfree fun _ => MatRec.zero_wf r.isLt c.isLt hfit)
  · exact .raise rfl rfl rfl (by simp)

theorem execBmDelete_answers {h : Handle} {s t : State} (he : execBmDelete h s = .next t) : Answers (.bmDelete h) s t := by
  unfold execBmDelete at he
  injection he with he
  subst he
  split
  · exact .raise rfl rfl rfl (by simp)
  · exact .act rfl rfl (.delMat h rfl)

theorem execBmGetBit_answers {h : Handle} {r c : Idx} {s t : State} (he : execBmGetBit h r c s = .next t) :
    Answers (.bmGetBit h r c) s t := by
  unfold execBmGetBit at he
  injection he with he
  subst he
  split
  · exact .raise rfl rfl rfl (by simp)
  · split
    · exact .respond rfl rfl (.read _ rfl)
    · exact .raise rfl rfl rfl (by simp)

theorem execBmSetBit_answers {h : Handle} {r c : Idx} {s t : State} (he : execBmSetBit h r c s = .next t) :
    Answers (.bmSetBit h r c) s t := by
  unfold execBmSetBit at he
  injection he with he
  subst he
  split
  · exact .raise rfl rfl rfl (by simp)
  · rename_i m hm
    split
    · rename_i hrc
      exact .act rfl rfl (.setMatBit h m r c rfl hm hrc)
    · exact .raise rfl rfl rfl (by simp)

theorem execBmFromData_answers {x : Byte} {n : Idx} {s t : State} (he : execBmFromData x n s = .next t) :
    Answers (.bmFromData x n) s t := by
  unfold execBmFromData at he
  injection he with he
  subst he
  split
  · exact .raise rfl rfl rfl (by simp)
  · rename_i hn
    split
    · exact .raise rfl rfl rfl (by simp)
    · rename_i g hg
      obtain ⟨-, h0, hfree⟩ := State.grantMatrix_eq_some.mp hg
      exact .act rfl rfl (.newMat g _ rfl rfl h0 hfree fun _ => MatRec.fromData_wf x hn n.isLt)

/-- Both variants of `BM_TO_DATA` (R95, R96). -/
theorem toDataWith_answers {strict : Bool} {h : Handle} {s t : State} (he : toDataWith strict h s = .next t) :
    Answers (.bmToData h) s t := by
  unfold toDataWith at he
  injection he with he
  subst he
  split
  · exact .raise rfl rfl rfl (by simp)
  · repeat' split
    all_goals first | exact .raise rfl rfl rfl (by simp) | exact .respond rfl rfl (.read _ rfl)

theorem execBmMultiply_answers {hA hB : Handle} {s t : State} (he : execBmMultiply hA hB s = .next t) :
    Answers (.bmMultiply hA hB) s t := by
  unfold execBmMultiply at he
  injection he with he
  subst he
  split
  · rename_i A B hA' hB'
    split
    · split
      · rename_i hfit
        split
        · exact .raise rfl rfl rfl (by simp)
        · rename_i g hg
          obtain ⟨-, h0, hfree⟩ := State.grantMatrix_eq_some.mp hg
          exact .act rfl rfl (.newMat g _ rfl rfl h0 hfree fun hinv =>
            MatRec.ofEntries_wf _ (hinv.mat_wf hA').1 (hinv.mat_wf hB').2.1 hfit)
      · exact .raise rfl rfl rfl (by simp)
    · exact .raise rfl rfl rfl (by simp)
  · exact .raise rfl rfl rfl (by simp)

theorem execHamEncode_answers {hG : Handle} {msg : Byte} {s t : State} (he : execHamEncode hG msg s = .next t) :
    Answers (.hamEncode hG msg) s t := by
  unfold execHamEncode at he
  injection he with he
  subst he
  have hb := s.drawIntermediates_block 4 8
  have hp := s.drawIntermediates_pending 4 8
  have hr := s.drawIntermediates_responses 4 8
  split
  · exact .raise rfl rfl rfl (by simp)
  · rename_i G hG'
    split
    · split
      · rename_i hmiss
        split <;> rename_i u hu <;> rw [hu] at hb hp hr
        · exact .raise hp hr hb (by simp)
        · refine .act hp hr ?_
          rw [show u.block = s.block from hb]
          unfold Block.encStore
          split
          · exact .read _ rfl
          · rename_i hn
            exact .encWrite hG G msg rfl hG' hn (hmiss.resolve_left hn)
      · exact .respond rfl rfl (.read _ rfl)
    · exact .raise rfl rfl rfl (by simp)

theorem execHamDecode_answers {hH : Handle} {code : Byte} {s t : State} (he : execHamDecode hH code s = .next t) :
    Answers (.hamDecode hH code) s t := by
  unfold execHamDecode at he
  injection he with he
  subst he
  split
  · exact .raise rfl rfl rfl (by simp)
  · rename_i H hH'
    split
    · rcases syndromeOf_cases H code s with ⟨u, hu, hp, hr, hb⟩ | ⟨u, hu, hp, hr, hmiss, hb⟩ | ⟨-, hu⟩ <;> rw [hu]
      · exact .raise hp hr hb (by simp)
      · exact .respond hp hr (hb ▸ .decWrite hH H code rfl hH' hmiss)
      · exact .respond rfl rfl (.decoded hH code _ rfl)
    · exact .raise rfl rfl rfl (by simp)

/-- Every command's next state has one more response, the same input port, and one of the listed effects. -/
theorem exec_answers {i : Instr} {s t : State} (h : exec i s = .next t) : Answers i s t := by
  cases i with
  | bvCreate => exact execBvCreate_answers h
  | bvDelete => exact execBvDelete_answers h
  | bvGetBit => exact execBvGetBit_answers h
  | bvSetBit => exact execBvSetBit_answers h
  | bvGetByte => exact execBvGetByte_answers h
  | bvSetByte => exact execBvSetByte_answers h
  | bmCreate => exact execBmCreate_answers h
  | bmDelete => exact execBmDelete_answers h
  | bmGetBit => exact execBmGetBit_answers h
  | bmSetBit => exact execBmSetBit_answers h
  | bmFromData => exact execBmFromData_answers h
  | bmToData => exact toDataWith_answers h
  | bmMultiply => exact execBmMultiply_answers h
  | hamEncode => exact execHamEncode_answers h
  | hamDecode => exact execHamDecode_answers h

end Sys2Proof.Machine
end

