-- ==== Sys2Proof/Laws/PerInstr.lean ====
section
/-! SUPPORT. Statements made for every command, one lemma per constructor. -/

namespace Sys2Proof.Laws.Legal

/-- The command word `encode` gives a command is legal (spec/30_encoding.md R64). -/
def Statement (i : Instr) : Prop := i.toCommand.wellFormed = true

theorem bvCreate (length : Idx) : Statement (.bvCreate length) := rfl
theorem bvDelete (h : Handle) : Statement (.bvDelete h) := rfl
theorem bvGetBit (h : Handle) (i : Idx) : Statement (.bvGetBit h i) := rfl
theorem bvSetBit (h : Handle) (i : Idx) : Statement (.bvSetBit h i) := rfl
theorem bvGetByte (h : Handle) (j : Idx) : Statement (.bvGetByte h j) := rfl
theorem bvSetByte (h : Handle) (j : Idx) (value : Byte) : Statement (.bvSetByte h j value) := rfl
theorem bmCreate (rows cols : Idx) : Statement (.bmCreate rows cols) := rfl
theorem bmDelete (h : Handle) : Statement (.bmDelete h) := rfl
theorem bmGetBit (h : Handle) (r c : Idx) : Statement (.bmGetBit h r c) := rfl
theorem bmSetBit (h : Handle) (r c : Idx) : Statement (.bmSetBit h r c) := rfl
theorem bmFromData (byte : Byte) (length : Idx) : Statement (.bmFromData byte length) := rfl
theorem bmToData (h : Handle) : Statement (.bmToData h) := rfl
theorem bmMultiply (hA hB : Handle) : Statement (.bmMultiply hA hB) := rfl
theorem hamEncode (hG : Handle) (msg : Byte) : Statement (.hamEncode hG msg) := rfl
theorem hamDecode (hH : Handle) (code : Byte) : Statement (.hamDecode hH code) := rfl

end Sys2Proof.Laws.Legal
end

