-- ==== Sys2Proof/Laws/Product.lean ====
section
/-! SUPPORT. The exclusive-or of a range, the entries of a product, and rows packed into bytes (spec/42_gf2_multiply.md). -/

namespace Sys2Proof.Machine

/-! ### XOR over a range -/

theorem xorUpTo_congr {k : Nat} {e f : Nat → Bool} (h : ∀ a < k, e a = f a) : xorUpTo k e = xorUpTo k f := by
  induction k with
  | zero => rfl
  | succ k ih => simp only [xorUpTo, h k (Nat.lt_succ_self k), ih fun a ha => h a (Nat.lt_succ_of_lt ha)]

@[simp] theorem xorUpTo_false (k : Nat) : xorUpTo k (fun _ => false) = false := by
  induction k with
  | zero => rfl
  | succ k ih => simp [xorUpTo, ih]

theorem xorUpTo_xor (k : Nat) (e f : Nat → Bool) :
    xorUpTo k (fun a => xor (e a) (f a)) = xor (xorUpTo k e) (xorUpTo k f) := by
  induction k with
  | zero => rfl
  | succ k ih =>
    simp only [xorUpTo, ih]
    cases xorUpTo k e <;> cases xorUpTo k f <;> cases e k <;> cases f k <;> rfl

theorem xorUpTo_and_right (k : Nat) (e : Nat → Bool) (b : Bool) :
    xorUpTo k (fun a => e a && b) = (xorUpTo k e && b) := by
  induction k with
  | zero => rfl
  | succ k ih =>
    simp only [xorUpTo, ih]
    cases xorUpTo k e <;> cases e k <;> cases b <;> rfl

theorem xorUpTo_and_left (k : Nat) (b : Bool) (e : Nat → Bool) :
    xorUpTo k (fun a => b && e a) = (b && xorUpTo k e) := by
  simp only [Bool.and_comm b, xorUpTo_and_right]

/-- Two exclusive-ors over ranges may change places. -/
theorem xorUpTo_comm (m n : Nat) (e : Nat → Nat → Bool) :
    xorUpTo m (fun a => xorUpTo n (fun b => e a b)) = xorUpTo n (fun b => xorUpTo m (fun a => e a b)) := by
  induction m with
  | zero => simp [xorUpTo]
  | succ m ih => simp only [xorUpTo, ih, xorUpTo_xor]

/-- The exclusive-or of a range as a fold from the left, term by term. -/
theorem xorUpTo_eq_foldl (k : Nat) (e : Nat → Bool) :
    xorUpTo k e = (List.range k).foldl (fun y a => xor y (e a)) false := by
  induction k with
  | zero => rfl
  | succ k ih => rw [List.range_succ, List.foldl_append, ← ih]; rfl

/-- The exclusive-or of a range is 1 when an odd number of its terms are 1. -/
theorem xorUpTo_eq_true_iff (k : Nat) (e : Nat → Bool) :
    xorUpTo k e = true ↔ (List.range k).countP e % 2 = 1 := by
  induction k with
  | zero => simp [xorUpTo]
  | succ k ih =>
    rw [List.range_succ, List.countP_append, List.countP_singleton, xorUpTo]
    cases h : xorUpTo k e <;> cases h' : e k <;> simp_all <;> omega

/-! ### The entries of a product -/

@[simp] theorem gf2Product_rows (A B : MatRec) : (gf2Product A B).rows = A.rows := rfl
@[simp] theorem gf2Product_cols (A B : MatRec) : (gf2Product A B).cols = B.cols := rfl
@[simp] theorem MatRec.add_rows (A B : MatRec) : (A.add B).rows = A.rows := rfl
@[simp] theorem MatRec.add_cols (A B : MatRec) : (A.add B).cols = A.cols := rfl

/-- The entry of a product, in range, is the exclusive-or of the products of entries (R101). -/
theorem entry_gf2Product {A B : MatRec} {r c : Nat} (hr : r < A.rows) (hc : c < B.cols) :
    (gf2Product A B).entry r c = gf2Cell A B r c := MatRec.entry_ofEntries _ hr hc

theorem entry_add {A B : MatRec} {r c : Nat} (hr : r < A.rows) (hc : c < A.cols) :
    (A.add B).entry r c = xor (A.entry r c) (B.entry r c) := MatRec.entry_ofEntries _ hr hc

@[simp] theorem entry_zero (m n r c : Nat) : (MatRec.zero m n).entry r c = false := by
  simp [MatRec.entry]

/-- Column `c < 8` of the row made from a byte is bit `c` of the byte (R94). -/
theorem entry_fromData (x : Byte) (n : Nat) {c : Nat} (hc : c < 8) : (MatRec.fromData x n).entry 0 c = x.getLsbD c := by
  simp only [MatRec.entry, MatRec.index, Memory.readBit, MatRec.fromData_vec, VecRec.setByte_storage, Nat.zero_mul,
    Nat.zero_add]
  rw [show c / 8 = 0 by omega, show c % 8 = c by omega, Memory.read_write_same]

/-! ### Rows packed into bytes -/

/-- Bit `c < 8` of a packed row is the entry of column `c`, 0 beyond the last column (R103). -/
theorem getLsbD_rowByte (m : MatRec) (r : Nat) {c : Nat} (hc : c < 8) :
    (m.rowByte r).getLsbD c = (decide (c < m.cols) && m.entry r c) := by
  have h := readBit_packBits (min m.cols 8) (fun c => m.entry r c) (8 * 0 + c)
  rw [Memory.readBit_mul_add _ 0 hc] at h
  rw [MatRec.rowByte, h, Nat.mul_zero, Nat.zero_add]
  congr 1
  exact decide_eq_decide.mpr (by omega)

/-- Bit `c` of the first byte of a one-row product (R101, R102). -/
theorem getLsbD_firstByte_product {A B : MatRec} (hA : A.rows = 1) {c : Nat} (hc : c < 8) :
    (gf2Product A B).firstByte.getLsbD c = (decide (c < B.cols) && gf2Cell A B 0 c) := by
  have h : (gf2Product A B).vec.storage.readBit (8 * 0 + c) =
      (decide (8 * 0 + c < A.rows * B.cols) && gf2Cell A B ((8 * 0 + c) / B.cols) ((8 * 0 + c) % B.cols)) :=
    readBit_packBits _ _ _
  rw [Memory.readBit_mul_add _ 0 hc] at h
  rw [MatRec.firstByte, h, hA, Nat.mul_zero, Nat.zero_add, Nat.one_mul]
  by_cases hlt : c < B.cols
  · rw [Nat.div_eq_of_lt hlt, Nat.mod_eq_of_lt hlt]
  · simp [hlt]

/-- Bit `c` of the exclusive-or of the selected rows (R103). -/
theorem getLsbD_xorRows (k : Nat) (x : Byte) (M : MatRec) (c : Nat) :
    (xorRows k x M).getLsbD c = xorUpTo k (fun r => x.getLsbD r && (M.rowByte r).getLsbD c) := by
  unfold xorRows
  induction k with
  | zero => simp [xorUpTo]
  | succ k ih =>
    rw [List.range_succ, List.foldl_append, xorUpTo, ← ih]
    simp only [List.foldl_cons, List.foldl_nil]
    split <;> simp_all

end Sys2Proof.Machine
end

