-- ==== Sys2Proof/Tests/Slice0.lean ====
section
/-! SUPPORT. Tests of single commands against the spec's own vectors (spec/95_test_vectors.md, "TV"), decoding of words
written out from spec/30_encoding.md, refusal of ill-formed words, and states that meet the hypotheses of each obligation. -/

namespace Sys2Proof.Tests

open Sys2Proof.Machine

/-! ### Helpers -/

/-- A block with small objects of every shape the commands look at, and empty caches. -/
def demoObjects : Block :=
  { Block.reset with
    vec := [(1, ⟨10, [(0, 0xA5), (1, 0x02)]⟩), (2, ⟨0, []⟩), (3, ⟨17, [(2, 0xFE)]⟩)],
    mat := [(1, gRef), (2, htRef), (3, MatRec.fromData 0xF5 4), (4, MatRec.zero 3 5), (5, MatRec.zero 65536 0)] ++
      [(6, MatRec.zero 0 65536), (7, ⟨2, 3, ⟨6, [(0, 0x1D)]⟩⟩), (8, ⟨3, 2, ⟨6, [(0, 0x1B)]⟩⟩), (9, MatRec.fromData 0xFF 12)] }

/-- The same block with three cache entries full. -/
def demoBlock : Block := ((demoObjects.encWrite 5 0x55).decWrite 0x75 3).decWrite 0x55 1

/-- A machine with a block, the environment's coming answers, and nothing presented. -/
def machine (b : Block) (draws : List (Option Handle)) : State := { State.reset with block := b, draws := draws }

/-- The demonstration block with two handles to come. -/
def demo : State := machine demoBlock [some 20, some 21]

/-- The demonstration block with every coming draw refused. -/
def dry : State := machine demoBlock [none, none]

/-- The demonstration block with the first coming draw granted and the second refused. -/
def secondRefused : State := machine demoBlock [some 20, none]

/-- The demonstration block with the next word on the port. -/
def demoOn (w : CmdWord) : State := { demo with pending := [.command w] }

/-- The last response of an outcome. -/
def lastOf : Result → Option Response
  | .next t => t.responses.getLast?
  | .fault _ => none
  | .refused _ => none

/-- The block of an outcome. -/
def blockOf : Result → Block
  | .next t => t.block
  | .fault _ => Block.reset
  | .refused _ => Block.reset

/-- The state of an outcome. -/
def stateOf : Result → State
  | .next t => t
  | .fault _ => State.reset
  | .refused _ => State.reset

/-- An outcome is a next state. -/
def goesOn : Result → Bool
  | .next _ => true
  | .fault _ => false
  | .refused _ => false

/-- The response of one command in the demonstration machine. -/
abbrev ans (i : Instr) : Option Response := lastOf (exec i demo)

/-! ### Ill-formed words are refused (spec/30_encoding.md R60, R64) -/

theorem test_wellFormed_refuses_reserved_bits : Command.wellFormed ⟨0x01, 1, 0, 0, 0⟩ = false := by decide
theorem test_wellFormed_refuses_top_reserved_bit : Command.wellFormed ⟨0x0F, 0x800000, 0, 0, 0⟩ = false := by decide
theorem test_wellFormed_refuses_opcode_zero : Command.wellFormed ⟨0x00, 0, 0, 0, 0⟩ = false := by decide
theorem test_wellFormed_refuses_opcode_16 : Command.wellFormed ⟨0x10, 0, 0, 0, 0⟩ = false := by decide
theorem test_wellFormed_takes_any_operand :
    Command.wellFormed ⟨0x01, 0, 0xFFFFFFFF, 0xFFFFFFFF, 0xFFFFFFFF⟩ = true := by decide
theorem test_decode_names_the_reason : decode 0x101 = .error .reservedBits ∧ decode 0x10 = .error .unassignedOpcode ∧
    decode 0xFF = .error .unassignedOpcode ∧ decode 0 = .error .unassignedOpcode := by decide

/-! ### Decoding, a word of every constructor (TV3 to TV14; the groups are c, b, a, and rsv with op) -/

theorem test_decode_bvCreate : decode 0x00000000_00000000_00000011_00000001 = .ok (.bvCreate 17) := by decide
theorem test_decode_bvDelete : decode 0x00000000_00000000_00000003_00000002 = .ok (.bvDelete 3) := by decide
theorem test_decode_bvGetBit : decode 0x00000000_00000007_00000002_00000003 = .ok (.bvGetBit 2 7) := by decide
theorem test_decode_bvSetBit : decode 0x00000000_00000010_00000003_00000004 = .ok (.bvSetBit 3 16) := by decide
theorem test_decode_bvGetByte : decode 0x00000000_00000002_00000003_00000005 = .ok (.bvGetByte 3 2) := by decide
theorem test_decode_bvSetByte : decode 0x000001A5_00000000_00000002_00000006 = .ok (.bvSetByte 2 0 0xA5) := by decide
theorem test_decode_bmCreate : decode 0x00000000_00000005_00000003_00000007 = .ok (.bmCreate 3 5) := by decide
theorem test_decode_bmDelete : decode 0x00000000_00000000_00000003_00000008 = .ok (.bmDelete 3) := by decide
theorem test_decode_bmGetBit : decode 0x00000005_00000001_00000002_00000009 = .ok (.bmGetBit 2 1 5) := by decide
theorem test_decode_bmSetBit : decode 0x00000002_00000001_00000004_0000000A = .ok (.bmSetBit 4 1 2) := by decide
theorem test_decode_bmFromData : decode 0x00000000_0000000C_FFFFFFAB_0000000B = .ok (.bmFromData 0xAB 12) := by decide
theorem test_decode_bmToData : decode 0x00000000_00000000_00000003_0000000C = .ok (.bmToData 3) := by decide
theorem test_decode_bmMultiply : decode 0x00000000_00000002_00000001_0000000D = .ok (.bmMultiply 1 2) := by decide
theorem test_decode_hamEncode : decode 0x00000000_FFFFFF05_00000001_0000000E = .ok (.hamEncode 1 5) := by decide
theorem test_decode_hamDecode : decode 0x00000000_00000075_00000002_0000000F = .ok (.hamDecode 2 0x75) := by decide

theorem test_decodeTableWord : decodeTableWord 128 0x000000020000000100000004_0000000A = some (.bmSetBit 4 1 2) ∧
    decodeTableWord 32 0x0C = some (.bmToData 0) ∧ decodeTableWord 128 0x10 = none := by decide

/-- R66, R68: the response words of the worked examples. -/
theorem test_response_words : Response.toWord ⟨.ok, some 0x55⟩ = 0x00000055_00000000 ∧
    Response.toWord ⟨.corrected, some 5⟩ = 0x00000005_00000001 ∧ Response.toWord ⟨.uncorrectable, none⟩ = 0x00000000_00000002 ∧
    Response.toWord ⟨.error .illegal, none⟩ = 0x00000000_00000007 := by decide

/-! ### The step -/

/-- From reset, the command on the port runs at once, whatever its opcode. -/
theorem test_step_runs_every_opcode :
    ((List.range 15).all fun k => goesOn (step (State.reset.withFetchWord 128 (k + 1)))) = true := by decide

theorem test_step_answers_from_reset :
    lastOf (step (State.reset.withFetchWord 128 0x02)) = some ⟨.error .handle, none⟩ ∧
    lastOf (step (State.reset.withFetchWord 128 0x0F)) = some ⟨.error .handle, none⟩ ∧
    lastOf (step (State.reset.withFetchWord 128 0x10)) = some ⟨.error .illegal, none⟩ := by decide

theorem test_core : Sys2Proof.core.reset = State.reset := rfl

/-! ### One command at a time (TV3 to TV15, and the examples of the command rules) -/

-- V10: length 17, three zero bytes; R80: a failed draw answers E_ALLOC and adds nothing.
theorem test_bvCreate : ans (.bvCreate 17) = some ⟨.ok, some 20⟩ ∧
    (blockOf (exec (.bvCreate 17) demo)).vecOf 20 = some ⟨17, []⟩ ∧ (VecRec.zero 17).size = 3 := by decide
theorem test_bvCreate_fails : lastOf (exec (.bvCreate 17) dry) = some ⟨.error .alloc, none⟩ ∧
    blockOf (exec (.bvCreate 17) dry) = demoBlock := ⟨by decide, rfl⟩
-- R27: an answer that is NULL or live is no grant.
theorem test_bvCreate_inadmissible : lastOf (exec (.bvCreate 8) (machine demoBlock [some 0])) = some ⟨.error .alloc, none⟩ ∧
    lastOf (exec (.bvCreate 8) (machine demoBlock [some 3])) = some ⟨.error .alloc, none⟩ ∧
    lastOf (exec (.bvCreate 8) (machine demoBlock [some 9])) = some ⟨.ok, some 9⟩ := by decide
-- R81: OK, then every use of the handle is E_HANDLE; the matrix with the same number stays.
theorem test_bvDelete : ans (.bvDelete 1) = some ⟨.ok, none⟩ ∧
    lastOf (exec (.bvGetBit 1 0) (stateOf (exec (.bvDelete 1) demo))) = some ⟨.error .handle, none⟩ ∧
    (blockOf (exec (.bvDelete 1) demo)).matOf 1 = some gRef := by decide
theorem test_bvDelete_dead : ans (.bvDelete 0) = some ⟨.error .handle, none⟩ ∧ ans (.bvDelete 9) = some ⟨.error .handle, none⟩ := by
  decide
-- R82's example, storage [0xA5, ..]; V17: a padding bit is out of range.
theorem test_bvGetBit : ans (.bvGetBit 1 0) = some ⟨.ok, some 1⟩ ∧ ans (.bvGetBit 1 1) = some ⟨.ok, some 0⟩ ∧
    ans (.bvGetBit 1 7) = some ⟨.ok, some 1⟩ ∧ ans (.bvGetBit 1 9) = some ⟨.ok, some 1⟩ := by decide
theorem test_bvGetBit_range : ans (.bvGetBit 3 17) = some ⟨.error .range, none⟩ ∧ ans (.bvGetBit 2 0) = some ⟨.error .range, none⟩ := by
  decide
-- R83's example: bit 9 of a zero vector of length 10 gives [0x00, 0x02].
theorem test_bvSetBit : (VecRec.zero 10).setBit 9 = ⟨10, [(1, 0x02)]⟩ ∧ ans (.bvSetBit 3 16) = some ⟨.ok, none⟩ ∧
    (blockOf (exec (.bvSetBit 3 16) demo)).vecOf 3 = some ⟨17, [(2, 0xFF)]⟩ := by decide
theorem test_bvSetBit_range : ans (.bvSetBit 1 10) = some ⟨.error .range, none⟩ := by decide
-- V15, V16.
theorem test_bvGetByte : ans (.bvGetByte 3 2) = some ⟨.ok, some 0xFE⟩ ∧ ans (.bvGetByte 3 0) = some ⟨.ok, some 0⟩ := by decide
theorem test_bvGetByte_range : ans (.bvGetByte 3 3) = some ⟨.error .range, none⟩ ∧ ans (.bvGetByte 2 0) = some ⟨.error .range, none⟩ := by
  decide
-- R85's example: 0xFF over byte 1 of a vector of length 10; a byte write can clear.
theorem test_bvSetByte : (blockOf (exec (.bvSetByte 1 1 0xFF) demo)).vecOf 1 = some ⟨10, [(0, 0xA5), (1, 0xFF)]⟩ ∧
    (blockOf (exec (.bvSetByte 1 1 0) demo)).vecOf 1 = some ⟨10, [(0, 0xA5)]⟩ := by decide
theorem test_bvSetByte_range : ans (.bvSetByte 1 2 1) = some ⟨.error .range, none⟩ := by decide
-- M1: the size never wraps and no draw is made; M2: a zero dimension is allowed.
theorem test_bmCreate_size : ans (.bmCreate 65536 65536) = some ⟨.error .alloc, none⟩ ∧
    (stateOf (exec (.bmCreate 65536 65536) demo)).draws = demo.draws ∧ ans (.bmCreate 65535 65537) = some ⟨.ok, some 20⟩ := by
  decide
theorem test_bmCreate_empty : (blockOf (exec (.bmCreate 0 5) demo)).matOf 20 = some ⟨0, 5, ⟨0, []⟩⟩ := by decide
-- R91: deleting G does not clear the cache, and a cached nibble then answers E_HANDLE.
theorem test_bmDelete : ans (.bmDelete 1) = some ⟨.ok, none⟩ ∧
    lastOf (exec (.hamEncode 1 5) (stateOf (exec (.bmDelete 1) demo))) = some ⟨.error .handle, none⟩ ∧
    (blockOf (exec (.bmDelete 1) demo)).encRead 5 = 0x55 := by decide
-- R92's example.
theorem test_bmGetBit : ans (.bmGetBit 1 1 4) = some ⟨.ok, some 1⟩ ∧ ans (.bmGetBit 1 0 4) = some ⟨.ok, some 0⟩ := by decide
theorem test_bmGetBit_range : ans (.bmGetBit 1 0 8) = some ⟨.error .range, none⟩ ∧ ans (.bmGetBit 1 4 0) = some ⟨.error .range, none⟩ := by
  decide
-- M5a and M5c: index 7 and index 14 of a 3×5 matrix; M5b: (0, 5) does not alias (1, 0).
theorem test_bmSetBit : (blockOf (exec (.bmSetBit 4 1 2) demo)).matOf 4 = some ⟨3, 5, ⟨15, [(0, 0x80)]⟩⟩ ∧
    (blockOf (exec (.bmSetBit 4 2 4) demo)).matOf 4 = some ⟨3, 5, ⟨15, [(1, 0x40)]⟩⟩ := by decide
theorem test_bmSetBit_range : ans (.bmSetBit 4 0 5) = some ⟨.error .range, none⟩ := by decide
-- M3 and M2c.
theorem test_bmFromData : (blockOf (exec (.bmFromData 0xFF 12) demo)).matOf 20 = some ⟨1, 12, ⟨12, [(0, 0xFF)]⟩⟩ ∧
    ans (.bmGetBit 9 0 7) = some ⟨.ok, some 1⟩ ∧ ans (.bmGetBit 9 0 8) = some ⟨.ok, some 0⟩ := by decide
theorem test_bmFromData_empty : ans (.bmFromData 0xAB 0) = some ⟨.error .range, none⟩ := by decide
-- M4a: padding comes back; M3e, and M2b.
theorem test_bmToData : ans (.bmToData 3) = some ⟨.ok, some 0xF5⟩ := by decide
theorem test_bmToData_shape : ans (.bmToData 9) = some ⟨.error .shape, none⟩ ∧ ans (.bmToData 1) = some ⟨.error .shape, none⟩ ∧
    lastOf (toDataWith false 9 demo) = some ⟨.ok, some 0xFF⟩ ∧ lastOf (toDataWith false 6 demo) = some ⟨.error .range, none⟩ := by
  decide
-- G1: A·B has storage [06], B·A storage [5E, 01].
theorem test_bmMultiply : (blockOf (exec (.bmMultiply 7 8) demo)).matOf 20 = some ⟨2, 2, ⟨4, [(0, 0x06)]⟩⟩ ∧
    (blockOf (exec (.bmMultiply 8 7) demo)).matOf 20 = some ⟨3, 3, ⟨9, [(0, 0x5E), (1, 0x01)]⟩⟩ := by decide
-- G7 and program P3, steps 17 and 21.
theorem test_bmMultiply_errors : ans (.bmMultiply 7 7) = some ⟨.error .shape, none⟩ ∧
    ans (.bmMultiply 5 6) = some ⟨.error .alloc, none⟩ ∧ (stateOf (exec (.bmMultiply 5 6) demo)).draws = demo.draws ∧
    ans (.bmMultiply 7 0) = some ⟨.error .handle, none⟩ := by decide
-- Program P2, steps 1 and 2 (cache hit: no draw); P4, step 1: nibble 1 is computed and stored.
theorem test_hamEncode : lastOf (exec (.hamEncode 1 0xF5) dry) = some ⟨.ok, some 0x55⟩ ∧
    ans (.hamEncode 1 1) = some ⟨.ok, some 0xE1⟩ ∧ (blockOf (exec (.hamEncode 1 1) demo)).encRead 1 = 0xE1 ∧
    (blockOf (exec (.hamEncode 1 0) demo)) = demoBlock := ⟨by decide, by decide, by decide, rfl⟩
-- Program P2, step 9; program P5, step 1: the second draw fails and the state is as before.
theorem test_hamEncode_errors : ans (.hamEncode 2 5) = some ⟨.error .shape, none⟩ ∧
    lastOf (exec (.hamEncode 1 1) (machine demoBlock [some 20, none])) = some ⟨.error .alloc, none⟩ ∧
    lastOf (exec (.hamEncode 1 1) (machine demoBlock [some 20, some 20])) = some ⟨.error .alloc, none⟩ ∧
    blockOf (exec (.hamEncode 1 1) (machine demoBlock [some 20, none])) = demoBlock :=
  ⟨by decide, by decide, by decide, rfl⟩
-- Program P2, steps 5 (hit), 7, 11.
theorem test_hamDecode : lastOf (exec (.hamDecode 2 0x75) dry) = some ⟨.corrected, some 5⟩ ∧
    ans (.hamDecode 2 0x56) = some ⟨.uncorrectable, none⟩ ∧ (blockOf (exec (.hamDecode 2 0x56) demo)).decRead 0x56 = 4 ∧
    ans (.hamDecode 2 0x52) = some ⟨.corrected, some 2⟩ := by decide
-- Program P2, step 10; R127: a refused draw on a miss.
theorem test_hamDecode_errors : ans (.hamDecode 1 0x55) = some ⟨.error .shape, none⟩ ∧
    lastOf (exec (.hamDecode 2 0x56) dry) = some ⟨.error .alloc, none⟩ := by decide

/-! ### Reference data -/

-- R163: setting the 1 entries on a zero matrix builds the two reference matrices, in 34 commands.
theorem test_boot_builds_the_references :
    gRefOnes.foldl (fun m e => m.setEntry e.1.toNat e.2.toNat) (MatRec.zero 4 8) = gRef ∧
    htRefOnes.foldl (fun m e => m.setEntry e.1.toNat e.2.toNat) (MatRec.zero 8 4) = htRef ∧
    (bootSequence 1 2).length = 34 := by decide +kernel
-- G6: the product of the two is the zero matrix, and the other way round is [1E,2D,4B,87,E1,D2,B4,78].
theorem test_reference_product : gf2Product gRef htRef = MatRec.zero 4 4 ∧ ((List.range 8).map (gf2Product htRef gRef).vec.storage.read) =
    [0x1E, 0x2D, 0x4B, 0x87, 0xE1, 0xD2, 0xB4, 0x78] := by decide +kernel
-- TV7, row 5x of table S1.
theorem test_syndromes : ((List.range 16).map fun k => syndromeWith htRef (BitVec.ofNat 8 (0x50 + k))) =
    [0x5, 0xB, 0x8, 0x6, 0xE, 0x0, 0x3, 0xD, 0x2, 0xC, 0xF, 0x1, 0x9, 0x7, 0x4, 0xA] := by decide +kernel

/-! ### States that meet the hypotheses of the obligations -/

theorem test_reset_has_no_storage : State.reset.block.vec = [] ∧ State.reset.block.mat = [] ∧ Memory.wf [] := by decide

theorem demoObjects_inv : demoObjects.Inv :=
  ⟨by decide +kernel, by decide +kernel, by decide +kernel, by decide +kernel, Block.reset_encRead 0,
    fun k => by rw [show demoObjects.decRead k = Block.reset.decRead k from rfl, Block.reset_decRead]; decide⟩

theorem demo_inv : demo.Inv :=
  Block.decWrite_inv (k := 0x55) (x := 1) (hx := by decide) <|
    Block.decWrite_inv (k := 0x75) (x := 3) (hx := by decide) <|
      Block.encWrite_inv (n := 5) (x := 0x55) (hn := by decide) demoObjects_inv

theorem demo_decAgrees : demo.block.decAgrees htRef := by
  intro k hk
  have h : demo.block.decRead k = if k = 0x55 then 1 else if k = 0x75 then 3 else 0 := by
    rw [show demo.block = demoBlock from rfl, demoBlock, Block.decRead_decWrite, Block.decRead_decWrite,
      Block.decRead_encWrite, show demoObjects.decRead k = Block.reset.decRead k from rfl, Block.reset_decRead]
  rw [h] at hk ⊢
  split at hk
  · next e => subst e; decide +kernel
  · split at hk
    · next e => subst e; decide +kernel
    · exact absurd rfl hk

/-- StepKeepsTheInvariant, MatrixIndexNeverOverflows: a state with objects of every kind, and a step of it; the last entry
of a matrix. -/
theorem witness_invariant : demo.Inv ∧ (demoOn 0x0000000A_00000001_00000004).Inv := ⟨demo_inv, demo_inv⟩

theorem witness_invariant_step :
    goesOn (step (demoOn 0x0000000A_00000001_00000004)) = true ∧ demo.block.matOf 4 = some (MatRec.zero 3 5) ∧
    2 < (MatRec.zero 3 5).rows ∧ 4 < (MatRec.zero 3 5).cols := by decide

/-- EncodeOfDecodeKeepsUsedBits: a word with ignored bits set. -/
theorem witness_ignored_bits : decode 0xFFFFFFFF_FFFFFF05_00000001_0000000E = .ok (.hamEncode 1 5) := by decide

/-- IllegalWordsAnswerEIllegal: both ends of each clause. -/
theorem witness_illegal_words : ((Command.ofWord 0).op.toNat = 0) ∧ (0x10 ≤ (Command.ofWord 0x10).op.toNat) ∧
    (0x10 ≤ (Command.ofWord 0xFF).op.toNat) ∧ ((Command.ofWord 0x101).rsv ≠ 0 ∧ (Command.ofWord 0x101).op = 1) ∧
    ((Command.ofWord 0x01).op.toNat = 1 ∧ (Command.ofWord 0x01).rsv = 0) ∧
    ((Command.ofWord 0x0F).op.toNat = 15 ∧ (Command.ofWord 0x0F).rsv = 0) ∧
    (demoOn 0).pending = [.command 0] := by decide

/-- ResponsesCarryValuesAsTheTableSays, ErrorsChangeNoState, EveryWordGetsOneResponse: a response of each kind, and an
error answered to a decoded word and to an illegal one. -/
theorem witness_response_kinds : (demoOn 0x02).pending = [.command 0x02] ∧
    lastOf (step (demoOn 0x02)) = some ⟨.error .handle, none⟩ ∧
    lastOf (step (demoOn 0x10)) = some ⟨.error .illegal, none⟩ ∧ ans (.bvDelete 0) = some ⟨.error .handle, none⟩ ∧
    ans (.hamDecode 2 0x56) = some ⟨.uncorrectable, none⟩ ∧ ans (.hamDecode 2 0x75) = some ⟨.corrected, some 5⟩ ∧
    ans (.bvSetBit 1 1) = some ⟨.ok, none⟩ ∧ ans (.bvGetBit 1 0) = some ⟨.ok, some 1⟩ ∧ goesOn (exec (.bvDelete 0) demo) = true := by decide

/-- StepRunsTheDecodedCommand, IdleBlockWaits: a word that decodes, and no word. -/
theorem witness_step : (demoOn 0x0000000A_00000001).pending = [.command 0x0000000A_00000001] ∧
    decode 0x0000000A_00000001 = .ok (.bvCreate 10) ∧ demo.pending = [] := by decide

/-- ResetEmptiesPoolsAndCaches: reset between commands, reset during one, and a step that is no reset with full slots. -/
theorem witness_reset : ({ demo with pending := [.reset] } : State).pending = [.reset] ∧
    ({ demo with pending := [.resetDuring 1] } : State).pending = [.resetDuring 1] ∧
    goesOn (step (demoOn 0x0000000A_00000001)) = true ∧ (demoOn 0x0000000A_00000001).block.encRead 5 ≠ 0 ∧
    (demoOn 0x0000000A_00000001).block.decRead 0x75 ≠ 0 := by decide

/-- CacheEntriesAreWrittenOnce, CachesGoOnAgreeing: a command that writes a cache, beside full slots that agree. -/
theorem witness_caches : goesOn (exec (.hamEncode 1 1) demo) = true ∧ demo.block.encRead 5 ≠ 0 ∧ demo.block.decRead 0x75 ≠ 0 ∧
    demo.block.matOf 1 = some gRef ∧ demo.block.matOf 2 = some htRef ∧ demo.block.encAgrees gRef ∧ demo.block.decAgrees htRef :=
  ⟨by decide, by decide, by decide, by decide, by decide, by unfold Block.encAgrees; decide +kernel, demo_decAgrees⟩

/-- LengthsAndShapesNeverChange, ObjectsStayUntilDeleted, BitsAreClearedByByteWritesOnly: objects before and after. -/
theorem witness_objects : demo.block.vecOf 1 ≠ none ∧ (blockOf (exec (.bvDelete 1) demo)).vecOf 1 = none ∧
    demo.block.matOf 1 ≠ none ∧ (blockOf (exec (.bmDelete 1) demo)).matOf 1 = none ∧
    (blockOf (exec (.bmSetBit 4 1 2) demo)).matOf 4 ≠ none ∧
    ((demo.block.vecOf 1).map fun v => v.storage.readBit 9) = some true ∧
    (((blockOf (exec (.bvSetByte 1 1 0) demo)).vecOf 1).map fun v => v.storage.readBit 9) = some false := by decide

/-- FamiliesKeepToTheirState: a command of each family goes on. -/
theorem witness_families : goesOn (exec (.bvSetBit 1 1) demo) = true ∧ (Instr.bvSetBit 1 1).isVectorCommand = true ∧
    goesOn (exec (.bmMultiply 7 8) demo) = true ∧ (Instr.bmMultiply 7 8).isMatrixCommand = true ∧
    goesOn (exec (.hamEncode 1 1) demo) = true ∧ goesOn (exec (.hamDecode 2 0x56) demo) = true := by decide

/-- BvCreateMakesAZeroVector, DrawsAreFreshAndOtherwiseFree: a granted and a refused draw, at the two ends of a length. -/
theorem witness_vector_draws : demo.grantVector 0 = some 20 ∧ demo.grantVector 4294967295 = some 20 ∧
    dry.grantVector 0 = none ∧ (20 : Handle) ≠ 0 ∧ demoBlock.vecOf 20 = none := by decide

/-- BmCreateMakesAZeroMatrix, BmFromDataMakesAByteRow: the size test at its boundary, length 0 and 1, both answers. -/
theorem witness_matrix_draws : (65536 : Idx).toNat * (65536 : Idx).toNat = 2 ^ 32 ∧
    (65535 : Idx).toNat * (65537 : Idx).toNat < 2 ^ 32 ∧ demo.grantMatrix 4294967295 = some 20 ∧ dry.grantMatrix 15 = none ∧
    (0 : Idx).toNat = 0 ∧ (1 : Idx).toNat ≠ 0 ∧ demo.grantMatrix 1 = some 20 ∧ dry.grantMatrix 1 = none ∧ demoBlock.matOf 20 = none := by
  decide

/-- The bit and byte commands on vectors, and BitVectorPropertiesHold: dead and live, the last index in range and the
first out of it, and a second index. -/
theorem witness_vectors : demo.block.vecOf 0 = none ∧ demo.block.vecOf 1 = some ⟨10, [(0, 0xA5), (1, 0x02)]⟩ ∧
    (9 : Idx).toNat < 10 ∧ 10 ≤ (10 : Idx).toNat ∧ (1 : Idx).toNat < (10 + 7) / 8 ∧ (10 + 7) / 8 ≤ (2 : Idx).toNat ∧
    (0 : Idx) ≠ 9 ∧ (0 : Idx) ≠ 1 ∧ goesOn (exec (.bvSetBit 1 9) demo) = true ∧ goesOn (exec (.bvSetByte 1 1 0) demo) = true ∧
    (9 : Idx).toNat = 8 * (1 : Idx).toNat + 1 ∧ goesOn (exec (.bvCreate 10) demo) = true ∧ demo.grantVector (10 : Idx).toNat = some 20 := by
  decide

/-- The commands on matrix entries, BM_DELETE, BM_TO_DATA and BitMatrixPropertiesHold: dead and live, the last entry in
range, a row and a column out of it, the shapes at the ends of BM_TO_DATA's range, and another shape. -/
theorem witness_matrices : demo.block.matOf 0 = none ∧ demo.block.matOf 4 = some (MatRec.zero 3 5) ∧
    ((2 : Idx).toNat < 3 ∧ (4 : Idx).toNat < 5) ∧ 3 ≤ (3 : Idx).toNat ∧ 5 ≤ (5 : Idx).toNat ∧
    ((0 : Idx), (0 : Idx)) ≠ (2, 4) ∧ goesOn (exec (.bmSetBit 4 2 4) demo) = true ∧
    (MatRec.fromData 0xF5 1).isByteRow ∧ (MatRec.fromData 0xF5 8).isByteRow ∧ ¬ (MatRec.fromData 0xF5 9).isByteRow ∧
    ¬ (MatRec.zero 1 0).isByteRow ∧ demo.block.matOf 3 = some (MatRec.fromData 0xF5 4) ∧ demo.block.matOf 1 = some gRef ∧
    ¬ gRef.isByteRow ∧ demo.block.matOf 6 = some (MatRec.zero 0 65536) ∧ (0 : Nat) * 65536 = 0 ∧
    goesOn (exec (.bmFromData 0xF5 8) demo) = true ∧ demo.grantMatrix (8 : Idx).toNat = some 20 ∧
    goesOn (exec (.bmCreate 3 5) demo) = true ∧ (3 : Idx).toNat * (5 : Idx).toNat < 2 ^ 32 ∧ demo.grantMatrix ((3 : Idx).toNat * (5 : Idx).toNat) = some 20 := by
  decide

/-- BmMultiplyMakesTheProduct: a dead operand, unequal inner sizes, a product too large, and one of size 2×2. -/
theorem witness_products : demo.block.matOf 0 = none ∧ demo.block.matOf 7 = some ⟨2, 3, ⟨6, [(0, 0x1D)]⟩⟩ ∧
    demo.block.matOf 8 = some ⟨3, 2, ⟨6, [(0, 0x1B)]⟩⟩ ∧ (3 : Nat) ≠ 2 ∧ demo.block.matOf 5 = some (MatRec.zero 65536 0) ∧
    demo.block.matOf 6 = some (MatRec.zero 0 65536) ∧ 2 ^ 32 ≤ 65536 * 65536 ∧ demo.grantMatrix 4 = some 20 ∧ dry.grantMatrix 4 = none := by
  decide

/-- ProductEntriesAreParities, ProductStorageIsPacked, RowProductIsXorOfRows, MultiplyIsAssociativeAndDistributive: shapes
that fit, operands that differ in padding only, and a row made from a byte. -/
theorem witness_product_laws : (MatRec.fromData 0x05 4).rows = 1 ∧ (MatRec.fromData 0x05 4).cols = gRef.rows ∧ gRef.cols = htRef.rows ∧
    gRef.cols ≤ 8 ∧ (∀ a : Fin 4, (MatRec.fromData 0x05 4).entry 0 a.val = (0x05 : Byte).getLsbD a.val) ∧
    MatRec.fromData 0xF5 4 ≠ MatRec.fromData 0x05 4 ∧
    (∀ a : Fin 4, (MatRec.fromData 0xF5 4).entry 0 a.val = (MatRec.fromData 0x05 4).entry 0 a.val) ∧
    3 < gRef.rows ∧ 7 < gRef.cols := by decide

/-- HamEncodeAnswersTheCodeword, EncodeIsPureAndLinear, RepeatedCodecCommandsAnswerTheSame, IntermediateDrawsAreTwoFreshHandles:
dead, wrong shape, hit, miss with both draws, miss with the first or the second refused, and nibble 0. -/
theorem witness_encoder : demo.block.matOf 0 = none ∧ demo.block.matOf 1 = some gRef ∧ demo.block.matOf 2 = some htRef ∧
    ¬ htRef.isGenerator ∧ gRef.isGenerator ∧ demo.block.encRead 5 ≠ 0 ∧ demo.block.encRead 1 = 0 ∧
    (demo.drawIntermediates 4 8).1 = true ∧ (dry.drawIntermediates 4 8).1 = false ∧ dry.grantMatrix 4 = none ∧
    secondRefused.grantMatrix 4 = some 20 ∧ (secondRefused.drawIntermediates 4 8).1 = false ∧
    demo.grantMatrix 4 = some 20 ∧ demo.afterDraw.answer .matrix 8 = some 21 ∧
    lastOf (exec (.hamEncode 1 5) demo) = some ⟨.ok, some 0x55⟩ ∧
    lastOf (exec (.hamEncode 1 5) (stateOf (exec (.hamEncode 1 5) demo))) = some ⟨.ok, some 0x55⟩ := by decide

/-- SyndromeIsComputedOrRecovered, HamDecodeAnswersByTheTable, RepeatedCodecCommandsAnswerTheSame: dead, wrong shape, hit,
miss with both draws, miss with the first or the second refused, and a table entry of each kind at its boundary positions. -/
theorem witness_decoder : demo.block.matOf 0 = none ∧ demo.block.matOf 2 = some htRef ∧ ¬ gRef.isParityCheck ∧
    htRef.isParityCheck ∧ demo.block.decRead 0x56 = 0 ∧ (demo.drawIntermediates 8 4).1 = true ∧
    (dry.drawIntermediates 8 4).1 = false ∧ dry.grantMatrix 8 = none ∧ secondRefused.grantMatrix 8 = some 20 ∧
    (secondRefused.drawIntermediates 8 4).1 = false ∧ (demo.block.decRead 0x75).toNat = (2 : Nibble).toNat + 1 ∧
    correctionTable 0 = .ok ∧ correctionTable 3 = .err ∧ correctionTable 7 = .pos 3 ∧ correctionTable 1 = .pos 4 ∧
    correctionTable 0xE = .pos 0 ∧ correctionTable 8 = .pos 7 := by decide

/-- ErrorPatternsAnswerByWeight: the caches agree, the slot is full or both draws are granted, and a pattern of each weight. -/
theorem witness_patterns : (demo.block.matOf 2 = some htRef ∧ demo.block.decAgrees htRef) ∧
    (demo.drawIntermediates 8 4).1 = true ∧ demo.block.decRead (encodeWith gRef 5 ^^^ 0x20) ≠ 0 ∧
    ([0x00, 0x20, 0x03, 0x07, 0x0F, 0x1F, 0x3F, 0x7F, 0xFF].map weight) = [0, 1, 2, 3, 4, 5, 6, 7, 8] ∧
    weight 0x33 = 4 ∧ encodeWith gRef 3 = 0x33 ∧ (∀ n : Nibble, encodeWith gRef n ≠ 0x0F) :=
  ⟨⟨by decide, demo_decAgrees⟩, by decide +kernel, by decide +kernel, by decide, by decide, by decide +kernel, by decide +kernel⟩

end Sys2Proof.Tests
end

section
/-! SUPPORT. What a step does with a command word, legal or illegal, and that every command completes; with them the two
statements about the step (spec/00_scope.md R6). -/

namespace Sys2Proof.Machine

/-- A word that decodes runs its command, with the word taken from the port (R6, R65). -/
theorem step_of_decode_ok {s : State} {w : CmdWord} {rest : List PortEvent} {i : Instr}
    (hp : s.pending = .command w :: rest) (hd : decode w = .ok i) : step s = exec i (s.taking rest) := by
  simp only [step, hp, hd]

/-- A word that does not decode raises `E_ILLEGAL`, whatever the reason (R64). -/
theorem step_of_decode_error {s : State} {w : CmdWord} {rest : List PortEvent} {e : Reject}
    (hp : s.pending = .command w :: rest) (hd : decode w = .error e) :
    step s = .next ((s.taking rest).raise .illegal) := by
  simp only [step, hp, hd, State.illegalCommand]

/-- No command faults or is refused: its meaning is a next state, with every error a response in it (R142). -/
theorem exec_eq_next (i : Instr) (s : State) : ∃ t, exec i s = .next t := by
  cases i <;> exact ⟨_, rfl⟩

/-- Every command completes with exactly one response. -/
theorem exec_next_answers (i : Instr) (s : State) : ∃ t, exec i s = .next t ∧ Answers i s t := by
  obtain ⟨t, ht⟩ := exec_eq_next i s
  exact ⟨t, ht, exec_answers ht⟩

end Sys2Proof.Machine

open Sys2Proof Sys2Proof.Machine

/-- Settles O9, by whether the word decodes: a command completes with one response, an illegal word raises `E_ILLEGAL`. -/
theorem everyWordGetsOneResponse : Obligations.EveryWordGetsOneResponse := by
  intro s w rest hp
  cases hd : decode w with
  | ok i =>
    obtain ⟨t, ht, hpending, r, hresponses, -⟩ := exec_next_answers i (s.taking rest)
    exact ⟨t, r, (step_of_decode_ok hp hd).trans ht, hresponses, hpending⟩
  | error e => exact ⟨_, _, step_of_decode_error hp hd, State.raise_responses _ _, State.raise_pending _ _⟩

/-- Settles O8: the legal word's equation of the step. -/
theorem stepRunsTheDecodedCommand : Obligations.StepRunsTheDecodedCommand :=
  fun _ _ _ _ hp hd => step_of_decode_ok hp hd

end

section
/-! SUPPORT. What a step can do, and what a command can do to one object, one cache entry and the invariants, each said once
over `Effect`; with them the statements about the state (spec/10_state.md R25 to R35). -/

namespace Sys2Proof.Machine

/-! ### The invariants (R25 to R29) -/

/-- The reset block has the invariants: its pools are empty and every cache entry is 0 (R34). -/
theorem Block.reset_inv : Block.reset.Inv :=
  ⟨⟨List.Pairwise.nil, by simp [Block.reset]⟩, by simp [Block.reset], ⟨List.Pairwise.nil, by simp [Block.reset]⟩,
    by simp [Block.reset], Block.reset_encRead 0, by simp⟩

/-- The handle of a live vector is not `NULL` (R27). -/
theorem Block.Inv.ne_null_of_vecOf {b : Block} (hb : b.Inv) {h : Handle} {v : VecRec} (hv : b.vecOf h = some v) :
    h ≠ nullHandle := by
  rintro rfl
  cases hb.null_vec.symm.trans hv

/-- The handle of a live matrix is not `NULL` (R27). -/
theorem Block.Inv.ne_null_of_matOf {b : Block} (hb : b.Inv) {h : Handle} {m : MatRec} (hm : b.matOf h = some m) :
    h ≠ nullHandle := by
  rintro rfl
  cases hb.null_mat.symm.trans hm

/-- Every effect a command can have keeps the invariants. -/
theorem Effect.inv {i : Instr} {b b' : Block} {r : Response} (he : Effect i b b' r) (hb : b.Inv) : b'.Inv := by
  cases he with
  | error | read | decoded => exact hb
  | newVec h n _ h0 _ => exact Block.putVec_inv hb h0 (VecRec.zero_wf n.isLt)
  | delVec h _ => exact Block.delVec_inv hb h
  | setVecBit h v k _ hv hk =>
    exact Block.putVec_inv hb (hb.ne_null_of_vecOf hv) (VecRec.setBit_wf (hb.vec_wf hv) hk)
  | setVecByte h v j x _ hv hj =>
    exact Block.putVec_inv hb (hb.ne_null_of_vecOf hv) (VecRec.setByte_wf (hb.vec_wf hv) hj x)
  | newMat h m _ _ h0 _ hm => exact Block.putMat_inv hb h0 (hm hb)
  | delMat h _ => exact Block.delMat_inv hb h
  | setMatBit h m r c _ hm hrc =>
    exact Block.putMat_inv hb (hb.ne_null_of_matOf hm) (MatRec.setEntry_wf (hb.mat_wf hm) hrc)
  | encWrite h G msg _ _ hn _ => exact Block.encWrite_inv hb hn _
  | decWrite h H k _ _ _ => exact Block.decWrite_inv hb k (biased_le _)

/-! ### What an effect does to one object and one cache entry -/

/-- A vector handle after a command: as before, newly live, deleted by the command that names it, or with a bit set or a byte
written by the command that names it (R25). -/
theorem Effect.vecOf_cases {i : Instr} {b b' : Block} {r : Response} (he : Effect i b b' r) (h : Handle) :
    b'.vecOf h = b.vecOf h ∨
    (b.vecOf h = none ∧ ∃ n, i = .bvCreate n ∧ b'.vecOf h = some (VecRec.zero n.toNat)) ∨
    (i = .bvDelete h ∧ b'.vecOf h = none) ∨
    ∃ v, b.vecOf h = some v ∧
      ((∃ k, i = .bvSetBit h k ∧ b'.vecOf h = some (v.setBit k.toNat)) ∨
        ∃ j x, i = .bvSetByte h j x ∧ b'.vecOf h = some (v.setByte j.toNat x)) := by
  cases he with
  | error | read | decoded | newMat | delMat | setMatBit | encWrite | decWrite => exact .inl rfl
  | newVec g n hi _ hfree =>
    by_cases hg : h = g
    · subst hg; exact .inr (.inl ⟨hfree, n, hi, by simp [Block.vecOf_putVec]⟩)
    · exact .inl (by simp [Block.vecOf_putVec, hg])
  | delVec g hi =>
    by_cases hg : h = g
    · subst hg; exact .inr (.inr (.inl ⟨hi, by simp [Block.vecOf_delVec]⟩))
    · exact .inl (by simp [Block.vecOf_delVec, hg])
  | setVecBit g v k hi hv _ =>
    by_cases hg : h = g
    · subst hg; exact .inr (.inr (.inr ⟨v, hv, .inl ⟨k, hi, by simp [Block.vecOf_putVec]⟩⟩))
    · exact .inl (by simp [Block.vecOf_putVec, hg])
  | setVecByte g v j x hi hv _ =>
    by_cases hg : h = g
    · subst hg; exact .inr (.inr (.inr ⟨v, hv, .inr ⟨j, x, hi, by simp [Block.vecOf_putVec]⟩⟩))
    · exact .inl (by simp [Block.vecOf_putVec, hg])

/-- A matrix handle after a command: as before, newly live, deleted by the command that names it, or with an entry set by the
command that names it (R26). -/
theorem Effect.matOf_cases {i : Instr} {b b' : Block} {r : Response} (he : Effect i b b' r) (h : Handle) :
    b'.matOf h = b.matOf h ∨
    (b.matOf h = none ∧ ∃ m, b'.matOf h = some m) ∨
    (i = .bmDelete h ∧ b'.matOf h = none) ∨
    ∃ m row col, i = .bmSetBit h row col ∧ b.matOf h = some m ∧
      b'.matOf h = some (m.setEntry row.toNat col.toNat) := by
  cases he with
  | error | read | decoded | newVec | delVec | setVecBit | setVecByte | encWrite | decWrite => exact .inl rfl
  | newMat g m _ _ _ hfree _ =>
    by_cases hg : h = g
    · subst hg; exact .inr (.inl ⟨hfree, m, by simp [Block.matOf_putMat]⟩)
    · exact .inl (by simp [Block.matOf_putMat, hg])
  | delMat g hi =>
    by_cases hg : h = g
    · subst hg; exact .inr (.inr (.inl ⟨hi, by simp [Block.matOf_delMat]⟩))
    · exact .inl (by simp [Block.matOf_delMat, hg])
  | setMatBit g m row col hi hm _ =>
    by_cases hg : h = g
    · subst hg; exact .inr (.inr (.inr ⟨m, row, col, hi, hm, by simp [Block.matOf_putMat]⟩))
    · exact .inl (by simp [Block.matOf_putMat, hg])

/-- An `ENC_CACHE` entry after a command: as before, or an empty entry other than 0 that `HAM_ENCODE` fills (R28, R113). -/
theorem Effect.encRead_cases {i : Instr} {b b' : Block} {r : Response} (he : Effect i b b' r) (n : Nibble) :
    b'.encRead n = b.encRead n ∨
    (n ≠ 0 ∧ b.encRead n = 0 ∧ ∃ h G msg, i = .hamEncode h msg ∧ nibbleOf msg = n ∧ b.matOf h = some G ∧
      b'.encRead n = encodeWith G n) := by
  cases he with
  | error | read | decoded | newVec | delVec | setVecBit | setVecByte | newMat | delMat | setMatBit | decWrite =>
    exact .inl rfl
  | encWrite h G msg hi hG hn hempty =>
    by_cases hm : n = nibbleOf msg
    · subst hm; exact .inr ⟨hn, hempty, h, G, msg, hi, rfl, hG, by simp [Block.encRead_encWrite]⟩
    · exact .inl (by simp [Block.encRead_encWrite, hm])

/-- A `DEC_CACHE` entry after a command: as before, or an empty entry that `HAM_DECODE` fills (R29, R124). -/
theorem Effect.decRead_cases {i : Instr} {b b' : Block} {r : Response} (he : Effect i b b' r) (k : Byte) :
    b'.decRead k = b.decRead k ∨
    (b.decRead k = 0 ∧ ∃ h H, i = .hamDecode h k ∧ b.matOf h = some H ∧ b'.decRead k = biased (syndromeWith H k)) := by
  cases he with
  | error | read | decoded | newVec | delVec | setVecBit | setVecByte | newMat | delMat | setMatBit | encWrite =>
    exact .inl rfl
  | decWrite h H code hi hH hempty =>
    by_cases hk : k = code
    · subst hk; exact .inr ⟨hempty, h, H, hi, hH, by simp [Block.decRead_decWrite]⟩
    · exact .inl (by simp [Block.decRead_decWrite, hk])

/-! ### The step -/

/-- With nothing presented the block waits (R161, log 1). -/
theorem step_of_pending_nil {s : State} (hp : s.pending = []) : step s = .next s := by
  simp only [step, hp, State.waiting]

/-- Reset between two commands (R160). -/
theorem step_of_reset {s : State} {rest : List PortEvent} (hp : s.pending = .reset :: rest) :
    step s = .next (s.taking rest).applyReset := by
  simp only [step, hp]

/-- Reset during a command does what reset does: the command leaves no trace (R160). -/
theorem step_of_resetDuring {s : State} {w : CmdWord} {rest : List PortEvent} (hp : s.pending = .resetDuring w :: rest) :
    step s = .next (s.taking rest).applyReset := by
  simp only [step, hp]

/-- Everything a step can do to the block: keep it, reset it, or change it as a command does (R6, R64, R160, R161). -/
theorem step_block_cases {s t : State} (h : step s = .next t) :
    t.block = s.block ∨ t.block = Block.reset ∨ ∃ i r, Effect i s.block t.block r := by
  cases hp : s.pending with
  | nil =>
    cases (step_of_pending_nil hp).symm.trans h
    exact .inl rfl
  | cons e rest =>
    cases e with
    | reset =>
      cases (step_of_reset hp).symm.trans h
      exact .inr (.inl rfl)
    | resetDuring w =>
      cases (step_of_resetDuring hp).symm.trans h
      exact .inr (.inl rfl)
    | command w =>
      cases hd : decode w with
      | error =>
        cases (step_of_decode_error hp hd).symm.trans h
        exact .inl rfl
      | ok i =>
        obtain ⟨-, r, -, he⟩ := exec_answers ((step_of_decode_ok hp hd).symm.trans h)
        exact .inr (.inr ⟨i, r, he⟩)

/-- Every step keeps the invariants. -/
theorem step_inv {s t : State} (h : step s = .next t) (hs : s.Inv) : t.Inv := by
  show t.block.Inv
  rcases step_block_cases h with hb | hb | ⟨_, _, he⟩
  · exact hb ▸ hs
  · exact hb ▸ Block.reset_inv
  · exact he.inv hs

/-! ### The allocation draw (R27) -/

/-- A state with block `b` whose environment answers the next draw with `a` (log 4). -/
def State.answering (b : Block) (a : Option Handle) : State := { State.reset with block := b, draws := [a] }

@[simp] theorem State.answering_block (b : Block) (a : Option Handle) : (State.answering b a).block = b := rfl
@[simp] theorem State.answer_answering (b : Block) (a : Option Handle) (kind : AllocKind) (bits : Nat) :
    (State.answering b a).answer kind bits = a := rfl

theorem State.grantVector_answering {b : Block} {h : Handle} (h0 : h ≠ nullHandle) (hfree : b.vecOf h = none)
    (bits : Nat) : (State.answering b (some h)).grantVector bits = some h :=
  State.grantVector_eq_some.mpr ⟨State.answer_answering b _ _ bits, h0, hfree⟩

theorem State.grantMatrix_answering {b : Block} {h : Handle} (h0 : h ≠ nullHandle) (hfree : b.matOf h = none)
    (bits : Nat) : (State.answering b (some h)).grantMatrix bits = some h :=
  State.grantMatrix_eq_some.mpr ⟨State.answer_answering b _ _ bits, h0, hfree⟩

theorem State.grantVector_answering_fail (b : Block) (bits : Nat) :
    (State.answering b none).grantVector bits = none := rfl

theorem State.grantMatrix_answering_fail (b : Block) (bits : Nat) :
    (State.answering b none).grantMatrix bits = none := rfl

/-- When the first draw is refused, it is the only one made. -/
theorem State.drawIntermediates_of_refused {s : State} {a : Nat} (h : s.grantMatrix a = none) (b : Nat) :
    s.drawIntermediates a b = (false, s.afterDraw) := by
  rcases s.drawIntermediates_cases a b with ⟨-, hd⟩ | ⟨t1, _, hg, -⟩
  · exact hd
  · rw [h] at hg; cases hg

/-- When the first draw is granted, the second one is made too, whatever its answer. -/
theorem State.drawIntermediates_snd_of_granted {s : State} {a : Nat} {t1 : Handle} (h : s.grantMatrix a = some t1)
    (b : Nat) : (s.drawIntermediates a b).2 = s.afterDraw.afterDraw := by
  rcases s.drawIntermediates_cases a b with ⟨hg, -⟩ | ⟨_, _, -, hd⟩
  · rw [h] at hg; cases hg
  · rw [hd]

end Sys2Proof.Machine

open Sys2Proof Sys2Proof.Machine

/-- Settles O13, by what a step can do to the block: each change keeps the invariants. -/
theorem stepKeepsTheInvariant : Obligations.StepKeepsTheInvariant :=
  fun _ _ hs h => step_inv h hs

/-- Settles O14: the empty pools and the zero caches have the invariants. -/
theorem resetHasTheInvariant : Obligations.ResetHasTheInvariant := Block.reset_inv

/-- Settles O12: empty pools, zero entries, storage that lists no byte, and an empty port. -/
theorem resetStateIsTheTable : Obligations.ResetStateIsTheTable :=
  ⟨Block.reset_vecOf, Block.reset_matOf, Block.reset_encRead, Block.reset_decRead, fun _ => Memory.read_nil,
    fun _ _ => Memory.read_nil, step_of_pending_nil rfl⟩

/-- Settles O16: a command fills empty entries only, and never the one of nibble 0. -/
theorem cacheEntriesAreWrittenOnce : Obligations.CacheEntriesAreWrittenOnce := by
  intro i s t h
  obtain ⟨-, r, -, he⟩ := exec_answers h
  refine ⟨fun n hn => ?_, fun k hk => ?_, ?_⟩
  · exact (he.encRead_cases n).resolve_right fun ⟨_, hempty, _⟩ => hn hempty
  · exact (he.decRead_cases k).resolve_right fun ⟨hempty, _⟩ => hk hempty
  · exact (he.encRead_cases 0).resolve_right fun ⟨hne, _⟩ => hne rfl

/-- Settles O17, by what a command can do to the object: setting a bit or a byte keeps its length and shape. -/
theorem lengthsAndShapesNeverChange : Obligations.LengthsAndShapesNeverChange := by
  intro i s t h
  obtain ⟨-, r, -, he⟩ := exec_answers h
  refine ⟨fun g v v' hv hv' => ?_, fun g m m' hm hm' => ?_⟩
  · rcases he.vecOf_cases g with hsame | ⟨hfree, -⟩ | ⟨-, hgone⟩ | ⟨w, hw, ⟨_, -, hset⟩ | ⟨_, _, -, hset⟩⟩
    · cases hv'.symm.trans (hsame.trans hv); rfl
    · cases hfree.symm.trans hv
    · cases hgone.symm.trans hv'
    · cases hw.symm.trans hv; cases hset.symm.trans hv'; rfl
    · cases hw.symm.trans hv; cases hset.symm.trans hv'; rfl
  · rcases he.matOf_cases g with hsame | ⟨hfree, -⟩ | ⟨-, hgone⟩ | ⟨w, _, _, -, hw, hset⟩
    · cases hm'.symm.trans (hsame.trans hm); exact ⟨rfl, rfl, rfl⟩
    · cases hfree.symm.trans hm
    · cases hgone.symm.trans hm'
    · cases hw.symm.trans hm; cases hset.symm.trans hm'; exact ⟨rfl, rfl, rfl⟩

/-- Settles O18, by what a command can do to the object: only the deletion that names it leaves it dead. -/
theorem objectsStayUntilDeleted : Obligations.ObjectsStayUntilDeleted := by
  intro i s t h
  obtain ⟨-, r, -, he⟩ := exec_answers h
  refine ⟨fun g hlive hdead => ?_, fun g hlive hdead => ?_⟩
  · rcases he.vecOf_cases g with hsame | ⟨hfree, -⟩ | ⟨hi, -⟩ | ⟨_, -, ⟨_, -, hset⟩ | ⟨_, _, -, hset⟩⟩
    · exact absurd (hsame.symm.trans hdead) hlive
    · exact absurd hfree hlive
    · exact hi
    · cases hset.symm.trans hdead
    · cases hset.symm.trans hdead
  · rcases he.matOf_cases g with hsame | ⟨hfree, -⟩ | ⟨hi, -⟩ | ⟨_, _, _, -, -, hset⟩
    · exact absurd (hsame.symm.trans hdead) hlive
    · exact absurd hfree hlive
    · exact hi
    · cases hset.symm.trans hdead

/-- Settles O21: the grant's two conditions, and a state that lays out the wanted answer. -/
theorem drawsAreFreshAndOtherwiseFree : Obligations.DrawsAreFreshAndOtherwiseFree := by
  refine ⟨fun s bits h => ⟨fun hg => (State.grantVector_eq_some.mp hg).2, fun hg => (State.grantMatrix_eq_some.mp hg).2⟩,
    fun b bits => ⟨fun h h0 hfree => ?_, fun h h0 hfree => ?_, ?_, ?_⟩⟩
  · exact ⟨.answering b (some h), State.answering_block b _, State.grantVector_answering h0 hfree bits⟩
  · exact ⟨.answering b (some h), State.answering_block b _, State.grantMatrix_answering h0 hfree bits⟩
  · exact ⟨.answering b none, State.answering_block b _, State.grantVector_answering_fail b bits⟩
  · exact ⟨.answering b none, State.answering_block b _, State.grantMatrix_answering_fail b bits⟩

/-- Settles O44, by whether the first draw is granted. -/
theorem intermediateDrawsAreTwoFreshHandles : Obligations.IntermediateDrawsAreTwoFreshHandles := by
  intro s a b
  refine ⟨?_, fun hg => State.drawIntermediates_of_refused hg b,
    fun t1 hg _ => State.drawIntermediates_snd_of_granted hg b, s.drawIntermediates_block a b,
    s.drawIntermediates_responses a b⟩
  rw [s.drawIntermediates_granted a b]
  constructor
  · rintro ⟨t1, t2, hg, hrest⟩
    exact ⟨t1, t2, hg, State.drawIntermediates_snd_of_granted hg b, hrest⟩
  · rintro ⟨t1, t2, hg, -, hrest⟩
    exact ⟨t1, t2, hg, hrest⟩

end

section
/-! SUPPORT. The backing bit of a matrix entry lies inside the backing vector and below `2 ^ IDX_W` (spec/20_memory.md R45,
R55); with it the statement about the index. -/

namespace Sys2Proof.Machine

/-- The index of an entry of a well-formed matrix lies below the backing length (R26, R45). -/
theorem MatRec.wf.index_lt_length {m : MatRec} (hm : m.wf) {r c : Nat} (hrc : m.hasEntry r c) :
    m.index r c < m.vec.length := by
  obtain ⟨-, -, hlen, -⟩ := hm
  rw [hlen]
  exact MatRec.index_lt hrc

/-- The backing length of a well-formed matrix lies below `2 ^ IDX_W` (R25, R26). -/
theorem MatRec.wf.length_lt_bitLimit {m : MatRec} (hm : m.wf) : m.vec.length < Config.bitLimit := by
  obtain ⟨-, -, -, hvec, -, -⟩ := hm
  exact hvec

end Sys2Proof.Machine

open Sys2Proof Sys2Proof.Machine

/-- Settles O22: the invariants make the matrix well formed, so its index stays below a length that is below `2 ^ 32`. -/
theorem matrixIndexNeverOverflows : Obligations.MatrixIndexNeverOverflows := by
  intro s h m r c hs hm hr hc
  have hwf : m.wf := hs.mat_wf hm
  have hlen : m.index r c < m.vec.length := hwf.index_lt_length ⟨hr, hc⟩
  exact ⟨Nat.le_sub_one_of_lt (MatRec.index_lt ⟨hr, hc⟩), hlen, hlen.trans hwf.length_lt_bitLimit⟩

end

section
/-! SUPPORT. What the decoder keeps of a command word and which words it accepts; with them the statements about the
encoding (spec/30_encoding.md R60 to R64, R68). -/

namespace Sys2Proof

/-! ### Encoding, then decoding -/

/-- The fields of a command select that command: its opcode names it, and each operand is read back from its field. -/
@[simp] theorem decodeCommand_toCommand (i : Instr) : decodeCommand i.toCommand = .ok i := by
  cases i <;> simp [Instr.toCommand, decodeCommand]

@[simp] theorem decode_encode (i : Instr) : decode (encode i) = .ok i := by
  rw [encode, decode_toWord, decodeCommand_toCommand]

/-! ### Decoding, then encoding -/

/-- The fields of `k` with only the bits that are set in `m`. -/
def Command.keep (k m : Command) : Command := ⟨k.op &&& m.op, k.rsv &&& m.rsv, k.a &&& m.a, k.b &&& m.b, k.c &&& m.c⟩

/-- Keeping bits field by field is keeping them in the word (R60). -/
theorem Command.toWord_keep (k m : Command) : (k.keep m).toWord = k.toWord &&& m.toWord := by
  refine BitVec.eq_of_getLsbD_eq fun i _ => ?_
  simp only [BitVec.getLsbD_and, Command.getLsbD_toWord, Command.keep]
  repeat' split
  all_goals rfl

/-- The command that the fields select has these fields again, cut to the bits it uses (R61, R63; log 9). -/
theorem toCommand_of_decodeCommand {k : Command} {i : Instr} (h : decodeCommand k = .ok i) :
    i.toCommand = k.keep i.usedFields := by
  have hop : ∀ {n : Nat}, k.op.toNat = n → k.op = BitVec.ofNat 8 n := fun hn => by
    rw [← hn, BitVec.ofNat_toNat, BitVec.setWidth_eq]
  have hall : ∀ x : BitVec 32, x &&& 0xFFFFFFFF#32 = x := fun x => BitVec.and_allOnes
  unfold decodeCommand at h
  split at h
  · cases h
  · split at h <;> cases h
    all_goals next hn => simp [Instr.toCommand, Instr.usedFields, Command.keep, hop hn, hall]

/-! ### Which words are commands -/

theorem Command.wellFormed_iff {k : Command} :
    k.wellFormed = true ↔ k.rsv = 0 ∧ 1 ≤ k.op.toNat ∧ k.op.toNat < 0x10 := by
  simp [Command.wellFormed, Nat.lt_succ_iff]

/-- The decoder accepts the well-formed words and no others (R64). -/
theorem exists_decodeCommand_eq_ok_iff {k : Command} : (∃ i, decodeCommand k = .ok i) ↔ k.wellFormed = true := by
  rw [Command.wellFormed_iff]
  constructor
  · rintro ⟨i, h⟩
    unfold decodeCommand at h
    split at h
    · cases h
    · next hrsv =>
      refine ⟨not_not.mp hrsv, ?_⟩
      split at h <;> cases h <;> omega
  · rintro ⟨hrsv, hlo, hhi⟩
    interval_cases hop : k.op.toNat <;> simp [decodeCommand, hrsv, hop]

end Sys2Proof

open Sys2Proof Sys2Proof.Machine

/-- Settles O1, by the command's constructor: its fields select it, and taking the fields of its word gives them back. -/
theorem decodeOfEncodeIsTheCommand : Obligations.DecodeOfEncodeIsTheCommand := decode_encode

/-- Settles O2: the decoded command's fields are the word's, cut to the used bits, and the cut is the same in the word. -/
theorem encodeOfDecodeKeepsUsedBits : Obligations.EncodeOfDecodeKeepsUsedBits := by
  intro w i hd
  calc encode i = ((Command.ofWord w).keep i.usedFields).toWord := by rw [encode, toCommand_of_decodeCommand hd]
    _ = w &&& i.usedFields.toWord := by rw [Command.toWord_keep, Command.toWord_ofWord]

/-- Settles O3: the decoder accepts exactly the well-formed words, and a word it rejects raises `E_ILLEGAL`. -/
theorem illegalWordsAnswerEIllegal : Obligations.IllegalWordsAnswerEIllegal := by
  intro w
  refine ⟨fun hill s rest hp => ?_, fun hlo hhi hrsv => ?_⟩
  · cases hd : decode w with
    | ok i =>
      obtain ⟨hrsv, hlo, hhi⟩ := Command.wellFormed_iff.mp (exists_decodeCommand_eq_ok_iff.mp ⟨i, hd⟩)
      rcases hill with hop | hop | hop
      · omega
      · omega
      · exact absurd hrsv hop
    | error e => exact ⟨_, step_of_decode_error hp hd, rfl, rfl, rfl, rfl, rfl⟩
  · exact exists_decodeCommand_eq_ok_iff.mpr (Command.wellFormed_iff.mpr ⟨hrsv, hlo, hhi⟩)

/-- Settles O4: the decoder computes each row of the table. -/
theorem workedCommandWordsDecode : Obligations.WorkedCommandWordsDecode := by
  unfold Obligations.WorkedCommandWordsDecode
  decide

/-- Settles O5, by the three fields of a response word; the value field is 0 where there is no value. -/
theorem responseWordHasItsFields : Obligations.ResponseWordHasItsFields := by
  refine ⟨fun r => ?_, State.respond_responses, State.raise_responses⟩
  obtain ⟨hstatus, hrsv, hval⟩ := r.toWord_fields
  exact ⟨hstatus, hrsv, fun x hx => by rw [hval, hx, Option.getD_some], fun hnone => by rw [hval, hnone, Option.getD_none]⟩

end

section
/-! SUPPORT. Which part of the block each family of commands can change, and what a command can do to the bits of an object
that is live before and after it, each read off `Effect`; with them the statements about families and bits (spec/10_state.md
R25 to R29, spec/70_reset_and_hazards.md R166). -/

namespace Sys2Proof

/-- No command is in both families. -/
theorem Instr.isMatrixCommand_of_isVectorCommand {i : Instr} (hi : i.isVectorCommand = true) :
    i.isMatrixCommand = false := by
  cases i with
  | bvCreate | bvDelete | bvGetBit | bvSetBit | bvGetByte | bvSetByte => rfl
  | bmCreate | bmDelete | bmGetBit | bmSetBit | bmFromData | bmToData | bmMultiply | hamEncode | hamDecode => cases hi

namespace Machine

/-! ### Frames by family -/

/-- A vector command leaves the matrix pool and both caches (R86 P5). -/
theorem Effect.frame_of_isVectorCommand {i : Instr} {b b' : Block} {r : Response} (he : Effect i b b' r)
    (hi : i.isVectorCommand = true) : b'.mat = b.mat ∧ b'.encCache = b.encCache ∧ b'.decCache = b.decCache := by
  cases he with
  | error | read | decoded | newVec | delVec | setVecBit | setVecByte => exact ⟨rfl, rfl, rfl⟩
  | newMat _ _ hmat => cases (Instr.isMatrixCommand_of_isVectorCommand hi).symm.trans hmat
  | delMat _ h | setMatBit _ _ _ _ h | encWrite _ _ _ h | decWrite _ _ _ h => subst h; cases hi

/-- A matrix command leaves the vector pool and both caches (R97 P10). -/
theorem Effect.frame_of_isMatrixCommand {i : Instr} {b b' : Block} {r : Response} (he : Effect i b b' r)
    (hi : i.isMatrixCommand = true) : b'.vec = b.vec ∧ b'.encCache = b.encCache ∧ b'.decCache = b.decCache := by
  cases he with
  | error | read | decoded | newMat | delMat | setMatBit => exact ⟨rfl, rfl, rfl⟩
  | newVec _ _ h | delVec _ h | setVecBit _ _ _ h | setVecByte _ _ _ _ h | encWrite _ _ _ h | decWrite _ _ _ h =>
    subst h; cases hi

/-- `HAM_ENCODE` can change `ENC_CACHE` only (R114). -/
theorem Effect.frame_of_hamEncode {g : Handle} {msg : Byte} {b b' : Block} {r : Response}
    (he : Effect (.hamEncode g msg) b b' r) : b'.vec = b.vec ∧ b'.mat = b.mat ∧ b'.decCache = b.decCache := by
  cases he with
  | error | read | encWrite => exact ⟨rfl, rfl, rfl⟩
  | decoded _ _ _ h | newVec _ _ h | delVec _ h | setVecBit _ _ _ h | setVecByte _ _ _ _ h | newMat _ _ h
  | delMat _ h | setMatBit _ _ _ _ h | decWrite _ _ _ h => cases h

/-- `HAM_DECODE` can change `DEC_CACHE` only (R127). -/
theorem Effect.frame_of_hamDecode {g : Handle} {code : Byte} {b b' : Block} {r : Response}
    (he : Effect (.hamDecode g code) b b' r) : b'.vec = b.vec ∧ b'.mat = b.mat ∧ b'.encCache = b.encCache := by
  cases he with
  | error | read | decoded | decWrite => exact ⟨rfl, rfl, rfl⟩
  | newVec _ _ h | delVec _ h | setVecBit _ _ _ h | setVecByte _ _ _ _ h | newMat _ _ h | delMat _ h
  | setMatBit _ _ _ _ h | encWrite _ _ _ h => cases h

/-! ### Objects live before and after -/

/-- A vector live before and after a command: as before, or with a bit set or a byte written by the command that names it. -/
theorem Effect.liveVec_cases {i : Instr} {b b' : Block} {r : Response} (he : Effect i b b' r) {h : Handle}
    {v v' : VecRec} (hv : b.vecOf h = some v) (hv' : b'.vecOf h = some v') :
    v' = v ∨ (∃ k, i = .bvSetBit h k ∧ v' = v.setBit k.toNat) ∨
      ∃ j x, i = .bvSetByte h j x ∧ v' = v.setByte j.toNat x := by
  rcases he.vecOf_cases h with hsame | ⟨hfree, -⟩ | ⟨-, hgone⟩ | ⟨w, hw, ⟨k, hi, hset⟩ | ⟨j, x, hi, hset⟩⟩
  · exact .inl (Option.some.inj (hv'.symm.trans (hsame.trans hv)))
  · cases hfree.symm.trans hv
  · cases hgone.symm.trans hv'
  · cases hw.symm.trans hv; cases hset.symm.trans hv'; exact .inr (.inl ⟨k, hi, rfl⟩)
  · cases hw.symm.trans hv; cases hset.symm.trans hv'; exact .inr (.inr ⟨j, x, hi, rfl⟩)

/-- A matrix live before and after a command: as before, or with an entry set. -/
theorem Effect.liveMat_cases {i : Instr} {b b' : Block} {r : Response} (he : Effect i b b' r) {h : Handle}
    {m m' : MatRec} (hm : b.matOf h = some m) (hm' : b'.matOf h = some m') :
    m' = m ∨ ∃ row col, m' = m.setEntry row col := by
  rcases he.matOf_cases h with hsame | ⟨hfree, -⟩ | ⟨-, hgone⟩ | ⟨w, row, col, -, hw, hset⟩
  · exact .inl (Option.some.inj (hm'.symm.trans (hsame.trans hm)))
  · cases hfree.symm.trans hm
  · cases hgone.symm.trans hm'
  · cases hw.symm.trans hm; cases hset.symm.trans hm'; exact .inr ⟨_, _, rfl⟩

/-- Setting a bit clears none (R12: there is no bit clear). -/
theorem Memory.readBit_setBit_of_readBit {S : Memory} {a : Nat} (ha : S.readBit a = true) (i : Nat) :
    (S.setBit i).readBit a = true := by
  rw [Memory.readBit_setBit, ha, Bool.or_true]

end Machine

end Sys2Proof

open Sys2Proof Sys2Proof.Machine

/-- Settles O20, by the frame of each family. -/
theorem familiesKeepToTheirState : Obligations.FamiliesKeepToTheirState := by
  intro i s t h
  obtain ⟨-, r, -, he⟩ := exec_answers h
  refine ⟨he.frame_of_isVectorCommand, he.frame_of_isMatrixCommand, ?_, ?_⟩
  · rintro g msg rfl
    exact he.frame_of_hamEncode
  · rintro g code rfl
    exact he.frame_of_hamDecode

/-- Settles O19, by what a command can do to a live object: setting a bit or an entry clears none, so a cleared bit is
left to the byte write. -/
theorem bitsAreClearedByByteWritesOnly : Obligations.BitsAreClearedByByteWritesOnly := by
  intro i s t h
  obtain ⟨-, r, -, he⟩ := exec_answers h
  refine ⟨fun g m m' a hm hm' ha => ?_, fun g v v' a hv hv' ha hcleared => ?_⟩
  · rcases he.liveMat_cases hm hm' with rfl | ⟨row, col, rfl⟩
    · exact ha
    · exact Memory.readBit_setBit_of_readBit ha _
  · rcases he.liveVec_cases hv hv' with rfl | ⟨k, -, rfl⟩ | ⟨j, x, hi, -⟩
    · cases ha.symm.trans hcleared
    · cases (Memory.readBit_setBit_of_readBit ha k.toNat).symm.trans hcleared
    · exact ⟨j, x, hi⟩

end

section
/-! SUPPORT. The next state of each vector command, one equation per branch of its meaning, and what a read of a vector
answers; with them the statements about the vector commands (spec/40_bit_vector.md R80 to R86). -/

namespace Sys2Proof

/-- The vector a command works on: the handle operand of the vector commands that have one (R63). -/
def Instr.vecOperand : Instr → Option Handle
  | .bvDelete h | .bvGetBit h _ | .bvSetBit h _ | .bvGetByte h _ | .bvSetByte h _ _ => some h
  | .bvCreate .. | .bmCreate .. | .bmDelete .. | .bmGetBit .. | .bmSetBit .. | .bmFromData .. | .bmToData ..
  | .bmMultiply .. | .hamEncode .. | .hamDecode .. => none

namespace Machine

/-! ### Reads after a vector update -/

@[simp] theorem Block.vecOf_putVec_same (b : Block) (h : Handle) (v : VecRec) : (b.putVec h v).vecOf h = some v := by
  rw [Block.vecOf_putVec, if_pos rfl]

theorem Block.vecOf_putVec_other (b : Block) {h h' : Handle} (v : VecRec) (hne : h' ≠ h) :
    (b.putVec h v).vecOf h' = b.vecOf h' := by
  rw [Block.vecOf_putVec, if_neg hne]

@[simp] theorem Block.vecOf_delVec_same (b : Block) (h : Handle) : (b.delVec h).vecOf h = none := by
  rw [Block.vecOf_delVec, if_pos rfl]

theorem Block.vecOf_delVec_other (b : Block) {h h' : Handle} (hne : h' ≠ h) : (b.delVec h).vecOf h' = b.vecOf h' := by
  rw [Block.vecOf_delVec, if_neg hne]

/-- The bytes after a bit is set: one is or-ed with the bit's mask (R12, R83). -/
theorem Memory.read_setBit (S : Memory) (i j : Nat) :
    (S.setBit i).read j = if j = i / 8 then S.read j ||| (1#8 <<< (i % 8)) else S.read j := by
  rw [Memory.setBit, Memory.read_write]
  by_cases hj : j = i / 8
  · rw [if_pos hj, if_pos hj, hj]
  · rw [if_neg hj, if_neg hj]

/-! ### Errors -/

/-- A command whose next state is `raise` of an error raises it. -/
theorem raises_of_exec {i : Instr} {s : State} {e : ErrorKind} (h : exec i s = .next (s.raise e)) : Raises i s e :=
  ⟨_, h, ⟨rfl, rfl⟩, rfl, rfl, rfl⟩

/-- Every vector command on a handle that is not live raises `E_HANDLE` (R81 to R85). -/
theorem raises_handle_of_dead {i : Instr} {h : Handle} {s : State} (hi : i.vecOperand = some h)
    (hdead : s.block.vecOf h = none) : Raises i s .handle := by
  apply raises_of_exec
  cases i <;> cases hi
  case bvDelete => simp only [exec, execBvDelete, hdead]
  case bvGetBit => simp only [exec, execBvGetBit, hdead]
  case bvSetBit => simp only [exec, execBvSetBit, hdead]
  case bvGetByte => simp only [exec, execBvGetByte, hdead]
  case bvSetByte => simp only [exec, execBvSetByte, hdead]

/-! ### Creation and deletion -/

theorem exec_bvCreate_of_refused {n : Idx} {s : State} (hg : s.grantVector n.toNat = none) :
    exec (.bvCreate n) s = .next (s.afterDraw.raise .alloc) := by
  simp only [exec, execBvCreate, hg]

theorem exec_bvCreate_of_granted {n : Idx} {s : State} {h : Handle} (hg : s.grantVector n.toNat = some h) :
    exec (.bvCreate n) s =
      .next ((s.afterDraw.setBlock (s.block.putVec h (VecRec.zero n.toNat))).respond .ok (some h)) := by
  simp only [exec, execBvCreate, hg]

theorem exec_bvDelete_of_live {h : Handle} {s : State} (hlive : s.block.vecOf h ≠ none) :
    exec (.bvDelete h) s = .next ((s.setBlock (s.block.delVec h)).respond .ok none) := by
  obtain ⟨v, hv⟩ := Option.ne_none_iff_exists'.mp hlive
  simp only [exec, execBvDelete, hv]

/-! ### Bit and byte access to a live vector -/

section
variable {h : Handle} {i j : Idx} {s : State} {v : VecRec} (hv : s.block.vecOf h = some v)
include hv

theorem exec_bvGetBit_of_inRange (hi : v.hasBit i.toNat) :
    exec (.bvGetBit h i) s = .next (s.respond .ok (some (valOfBit (v.storage.readBit i.toNat)))) := by
  simp only [exec, execBvGetBit, hv, if_pos hi]

theorem raises_range_bvGetBit (hi : v.length ≤ i.toNat) : Raises (.bvGetBit h i) s .range :=
  raises_of_exec (by simp only [exec, execBvGetBit, hv, if_neg (Nat.not_lt.mpr hi)])

theorem exec_bvSetBit_of_inRange (hi : v.hasBit i.toNat) :
    exec (.bvSetBit h i) s = .next ((s.setBlock (s.block.putVec h (v.setBit i.toNat))).respond .ok none) := by
  simp only [exec, execBvSetBit, hv, if_pos hi]

theorem raises_range_bvSetBit (hi : v.length ≤ i.toNat) : Raises (.bvSetBit h i) s .range :=
  raises_of_exec (by simp only [exec, execBvSetBit, hv, if_neg (Nat.not_lt.mpr hi)])

theorem exec_bvGetByte_of_inRange (hj : v.hasByte j.toNat) :
    exec (.bvGetByte h j) s = .next (s.respond .ok (some (valOfByte (v.storage.read j.toNat)))) := by
  simp only [exec, execBvGetByte, hv, if_pos hj]

theorem raises_range_bvGetByte (hj : v.size ≤ j.toNat) : Raises (.bvGetByte h j) s .range :=
  raises_of_exec (by simp only [exec, execBvGetByte, hv, if_neg (Nat.not_lt.mpr hj)])

theorem exec_bvSetByte_of_inRange (hj : v.hasByte j.toNat) (x : Byte) :
    exec (.bvSetByte h j x) s =
      .next ((s.setBlock (s.block.putVec h (v.setByte j.toNat x))).respond .ok none) := by
  simp only [exec, execBvSetByte, hv, if_pos hj]

theorem raises_range_bvSetByte (hj : v.size ≤ j.toNat) (x : Byte) : Raises (.bvSetByte h j x) s .range :=
  raises_of_exec (by simp only [exec, execBvSetByte, hv, if_neg (Nat.not_lt.mpr hj)])

/-- A bit in range that is known is what `BV_GET_BIT` answers (R82). -/
theorem bvGetBit_answers_of_readBit {x : Bool} (hi : v.hasBit i.toNat) (hx : v.storage.readBit i.toNat = x) :
    ∃ u, exec (.bvGetBit h i) s = .next u ∧ Answered s u .ok (some (valOfBit x)) := by
  subst hx
  exact ⟨_, exec_bvGetBit_of_inRange hv hi, rfl, rfl⟩

/-- A byte in range that is known is what `BV_GET_BYTE` answers (R84). -/
theorem bvGetByte_answers_of_read {x : Byte} (hj : v.hasByte j.toNat) (hx : v.storage.read j.toNat = x) :
    ∃ u, exec (.bvGetByte h j) s = .next u ∧ Answered s u .ok (some (valOfByte x)) := by
  subst hx
  exact ⟨_, exec_bvGetByte_of_inRange hv hj, rfl, rfl⟩

end

/-! ### The properties P1 to P5 of R86 -/

/-- P1: a new vector reads 0. -/
theorem bvGetBit_after_bvCreate {n i : Idx} {h : Handle} {s t : State} (hg : s.grantVector n.toNat = some h)
    (ht : exec (.bvCreate n) s = .next t) (hi : i.toNat < n.toNat) :
    ∃ u, exec (.bvGetBit h i) t = .next u ∧ Answered t u .ok (some 0) := by
  cases (exec_bvCreate_of_granted hg).symm.trans ht
  have hnew := Block.vecOf_putVec_same s.block h (VecRec.zero n.toNat)
  exact bvGetBit_answers_of_readBit (v := VecRec.zero n.toNat) hnew hi (Memory.readBit_nil _)

/-- P2: after `BV_SET_BIT`, bit `k` reads 1 if it is the bit set, and as before otherwise. -/
theorem bvGetBit_after_bvSetBit {h : Handle} {i k : Idx} {v : VecRec} {s t : State} (hv : s.block.vecOf h = some v)
    (hi : v.hasBit i.toNat) (hk : v.hasBit k.toNat) (ht : exec (.bvSetBit h i) s = .next t) :
    ∃ u, exec (.bvGetBit h k) t = .next u ∧
      Answered t u .ok (some (valOfBit (decide (k = i) || v.storage.readBit k.toNat))) := by
  cases (exec_bvSetBit_of_inRange hv hi).symm.trans ht
  have hnew := Block.vecOf_putVec_same s.block h (v.setBit i.toNat)
  refine bvGetBit_answers_of_readBit (v := v.setBit i.toNat) hnew hk ?_
  rw [VecRec.setBit_storage, Memory.readBit_setBit, decide_eq_decide.mpr toNat_eq_iff]

/-- P3: after `BV_SET_BYTE`, byte `k` reads the value if it is the byte written, and as before otherwise. -/
theorem bvGetByte_after_bvSetByte {h : Handle} {j k : Idx} {x : Byte} {v : VecRec} {s t : State}
    (hv : s.block.vecOf h = some v) (hj : v.hasByte j.toNat) (hk : v.hasByte k.toNat)
    (ht : exec (.bvSetByte h j x) s = .next t) :
    ∃ u, exec (.bvGetByte h k) t = .next u ∧
      Answered t u .ok (some (valOfByte (if k = j then x else v.storage.read k.toNat))) := by
  cases (exec_bvSetByte_of_inRange hv hj x).symm.trans ht
  have hnew := Block.vecOf_putVec_same s.block h (v.setByte j.toNat x)
  refine bvGetByte_answers_of_read (v := v.setByte j.toNat x) hnew hk ?_
  simp only [VecRec.setByte_storage, Memory.read_write, toNat_eq_iff]

/-- P4: a bit of a byte, zero-extended or not, is the bit `BV_GET_BIT` answers. -/
theorem valOfBit_readBit_mul_add (S : Memory) (j : Nat) {k : Nat} (hk : k < 8) :
    valOfBit (S.readBit (8 * j + k)) = if (valOfByte (S.read j)).getLsbD k then 1 else 0 := by
  have hext : (valOfByte (S.read j)).getLsbD k = (S.read j).getLsbD k := by
    simp [valOfByte, Nat.lt_trans hk (by decide : 8 < 32)]
  rw [hext, Memory.readBit_mul_add S j hk, valOfBit]

/-- P5: a live vector changes only under a command that deletes it, sets a bit of it or writes a byte of it. -/
theorem Effect.command_of_vec_changed {i : Instr} {b b' : Block} {r : Response} (he : Effect i b b' r) {h : Handle}
    {v : VecRec} (hv : b.vecOf h = some v) (hchanged : b'.vecOf h ≠ some v) :
    i = .bvDelete h ∨ (∃ k, i = .bvSetBit h k) ∨ ∃ j x, i = .bvSetByte h j x := by
  rcases he.vecOf_cases h with hsame | ⟨hfree, -⟩ | ⟨hi, -⟩ | ⟨_, -, ⟨k, hi, -⟩ | ⟨j, x, hi, -⟩⟩
  · exact absurd (hsame.trans hv) hchanged
  · cases hfree.symm.trans hv
  · exact .inl hi
  · exact .inr (.inl ⟨k, hi⟩)
  · exact .inr (.inr ⟨j, x, hi⟩)

end Machine

end Sys2Proof

open Sys2Proof Sys2Proof.Machine

/-- Settles O23, by whether the draw is granted. -/
theorem bvCreateMakesAZeroVector : Obligations.BvCreateMakesAZeroVector := by
  refine ⟨fun n b c => decode_toWord _, fun n s => ⟨fun hg => ?_, fun h hg => ?_⟩⟩
  · exact ⟨_, exec_bvCreate_of_refused hg, ⟨rfl, rfl⟩, rfl, rfl, rfl⟩
  · obtain ⟨-, h0, hfree⟩ := State.grantVector_eq_some.mp hg
    exact ⟨_, exec_bvCreate_of_granted hg, ⟨rfl, rfl⟩, hfree, h0,
      ⟨_, Block.vecOf_putVec_same _ h _, rfl, Memory.read_nil⟩, fun h' => Block.vecOf_putVec_other _ _, rfl, ⟨rfl, rfl⟩,
      rfl, rfl⟩

/-- Settles O24, by whether the handle is live; after the deletion it is dead to every vector command. -/
theorem bvDeleteRemovesTheVector : Obligations.BvDeleteRemovesTheVector := by
  refine ⟨fun h b c => decode_toWord _, fun h s => ⟨raises_handle_of_dead rfl, fun hlive => ?_⟩⟩
  have hdead : (s.block.delVec h).vecOf h = none := Block.vecOf_delVec_same _ h
  exact ⟨_, exec_bvDelete_of_live hlive, ⟨rfl, rfl⟩, hdead, fun h' => Block.vecOf_delVec_other _, rfl, ⟨rfl, rfl⟩,
    ⟨rfl, rfl⟩, fun k x => ⟨raises_handle_of_dead rfl hdead, raises_handle_of_dead rfl hdead,
      raises_handle_of_dead rfl hdead, raises_handle_of_dead rfl hdead, raises_handle_of_dead rfl hdead⟩⟩

/-- Settles O25; the bit read is a quotient of the byte modulo 2. -/
theorem bvGetBitReadsTheBit : Obligations.BvGetBitReadsTheBit := by
  refine ⟨fun h i c => decode_toWord _, fun h i s => ⟨raises_handle_of_dead rfl, fun v hv =>
    ⟨raises_range_bvGetBit hv, fun hi => ?_⟩⟩⟩
  rw [← valOfBit_getLsbD]
  exact ⟨_, exec_bvGetBit_of_inRange hv hi, ⟨rfl, rfl⟩, rfl, rfl, rfl⟩

/-- Settles O26, by the reads after a bit is set and after a vector is put. -/
theorem bvSetBitSetsTheBit : Obligations.BvSetBitSetsTheBit := by
  refine ⟨fun h i c => decode_toWord _, fun h i s => ⟨raises_handle_of_dead rfl, fun v hv =>
    ⟨raises_range_bvSetBit hv, fun hi => ?_⟩⟩⟩
  exact ⟨_, _, exec_bvSetBit_of_inRange hv hi, ⟨rfl, rfl⟩, Block.vecOf_putVec_same _ h _, rfl,
    Memory.read_setBit v.storage i.toNat, fun h' => Block.vecOf_putVec_other _ _, rfl, ⟨rfl, rfl⟩, rfl, rfl⟩

/-- Settles O27. -/
theorem bvGetByteReadsTheByte : Obligations.BvGetByteReadsTheByte :=
  ⟨fun _ _ _ => decode_toWord _, fun _ _ _ => ⟨raises_handle_of_dead rfl, fun _ hv =>
    ⟨raises_range_bvGetByte hv, fun hj => ⟨_, exec_bvGetByte_of_inRange hv hj, ⟨rfl, rfl⟩, rfl, rfl, rfl⟩⟩⟩⟩

/-- Settles O28, by the reads after a byte is written and after a vector is put. -/
theorem bvSetByteOverwritesTheByte : Obligations.BvSetByteOverwritesTheByte := by
  refine ⟨fun h j c => ?_, fun h j x s => ⟨raises_handle_of_dead rfl, fun v hv =>
    ⟨fun hj => raises_range_bvSetByte hv hj x, fun hj => ?_⟩⟩⟩
  · rw [← lowByte_eq_setWidth]
    exact decode_toWord _
  · exact ⟨_, _, exec_bvSetByte_of_inRange hv hj x, ⟨rfl, rfl⟩, Block.vecOf_putVec_same _ h _, rfl,
      Memory.read_write v.storage j.toNat x, fun h' => Block.vecOf_putVec_other _ _, rfl, ⟨rfl, rfl⟩, rfl, rfl⟩

/-- Settles O29, property by property. -/
theorem bitVectorPropertiesHold : Obligations.BitVectorPropertiesHold := by
  refine ⟨fun n i h s t hg ht hi => bvGetBit_after_bvCreate hg ht hi, fun h i k v s t hv hi hk ht => ⟨?_, fun hne => ?_⟩,
    fun h j k x v s t hv hj hk ht => ⟨?_, fun hne => ?_⟩, fun h j i k v s hv hk hi hlt => ?_, fun i s t ht => ?_⟩
  · simpa [valOfBit] using bvGetBit_after_bvSetBit hv hi hi ht
  · obtain ⟨u, hu, hans⟩ := bvGetBit_answers_of_readBit hv hk rfl
    obtain ⟨u', hu', hans'⟩ := bvGetBit_after_bvSetBit hv hi hk ht
    rw [decide_eq_false hne, Bool.false_or] at hans'
    exact ⟨_, u, u', hu, hans, hu', hans'⟩
  · obtain ⟨u, hu, hans⟩ := bvGetByte_after_bvSetByte hv hj hj ht
    rw [if_pos rfl] at hans
    exact ⟨u, hu, hans⟩
  · obtain ⟨u, hu, hans⟩ := bvGetByte_answers_of_read hv hk rfl
    obtain ⟨u', hu', hans'⟩ := bvGetByte_after_bvSetByte hv hj hk ht
    rw [if_neg hne] at hans'
    exact ⟨_, u, u', hu, hans, hu', hans'⟩
  · have hj : v.hasByte j.toNat := by
      show j.toNat < (v.length + 7) / 8
      omega
    obtain ⟨u, hu, hans⟩ := bvGetByte_answers_of_read hv hj rfl
    obtain ⟨u', hu', hans'⟩ := bvGetBit_answers_of_readBit hv (hi ▸ hlt) rfl
    rw [hi, valOfBit_readBit_mul_add _ _ hk] at hans'
    exact ⟨_, u, u', hu, hans, hu', hans'⟩
  · obtain ⟨-, r, -, he⟩ := exec_answers ht
    exact ⟨he.frame_of_isVectorCommand, fun h v => he.command_of_vec_changed⟩

end

section
/-! SUPPORT. The next state of each matrix command but the multiply, one equation per branch of its meaning, and what a read
of a matrix answers; with them the statements about these commands (spec/41_bit_matrix.md R90 to R97). -/

namespace Sys2Proof

/-- The matrices a command works on: its handle operands, for the matrix commands and the codec (R63). -/
def Instr.matOperands : Instr → List Handle
  | .bmDelete h | .bmGetBit h _ _ | .bmSetBit h _ _ | .bmToData h | .hamEncode h _ | .hamDecode h _ => [h]
  | .bmMultiply hA hB => [hA, hB]
  | .bvCreate .. | .bvDelete .. | .bvGetBit .. | .bvSetBit .. | .bvGetByte .. | .bvSetByte .. | .bmCreate ..
  | .bmFromData .. => []

namespace Machine

/-! ### Reads after a matrix update -/

@[simp] theorem Block.matOf_putMat_same (b : Block) (h : Handle) (m : MatRec) : (b.putMat h m).matOf h = some m := by
  rw [Block.matOf_putMat, if_pos rfl]

theorem Block.matOf_putMat_other (b : Block) {h h' : Handle} (m : MatRec) (hne : h' ≠ h) :
    (b.putMat h m).matOf h' = b.matOf h' := by
  rw [Block.matOf_putMat, if_neg hne]

@[simp] theorem Block.matOf_delMat_same (b : Block) (h : Handle) : (b.delMat h).matOf h = none := by
  rw [Block.matOf_delMat, if_pos rfl]

theorem Block.matOf_delMat_other (b : Block) {h h' : Handle} (hne : h' ≠ h) : (b.delMat h).matOf h' = b.matOf h' := by
  rw [Block.matOf_delMat, if_neg hne]

/-! ### The index, entries and bytes -/

/-- An entry is out of range when its row or its column is (R45). -/
theorem MatRec.not_hasEntry {m : MatRec} {r c : Nat} (h : m.rows ≤ r ∨ m.cols ≤ c) : ¬ m.hasEntry r c := by
  rintro ⟨hr, hc⟩
  omega

theorem MatRec.index_div_cols {m : MatRec} {c : Nat} (r : Nat) (hc : c < m.cols) : m.index r c / m.cols = r := by
  rw [MatRec.index, Nat.mul_comm, Nat.mul_add_div (Nat.zero_lt_of_lt hc), Nat.div_eq_of_lt hc, Nat.add_zero]

theorem MatRec.index_mod_cols {m : MatRec} {c : Nat} (r : Nat) (hc : c < m.cols) : m.index r c % m.cols = c := by
  rw [MatRec.index, Nat.mul_comm, Nat.mul_add_mod, Nat.mod_eq_of_lt hc]

/-- Two entries whose columns are in range share a backing bit only if they are the same entry (R45). -/
theorem MatRec.index_inj {m : MatRec} {r c r' c' : Nat} (hc : c < m.cols) (hc' : c' < m.cols) :
    m.index r' c' = m.index r c ↔ r' = r ∧ c' = c := by
  refine ⟨fun h => ⟨?_, ?_⟩, fun ⟨hr, hcc⟩ => by rw [hr, hcc]⟩
  · rw [← index_div_cols r' hc', h, index_div_cols r hc]
  · rw [← index_mod_cols r' hc', h, index_mod_cols r hc]

/-- Setting an entry sets that entry and leaves every other one (R93, R97 P8). -/
theorem MatRec.entry_setEntry {m : MatRec} {r c r' c' : Nat} (hc : c < m.cols) (hc' : c' < m.cols) :
    (m.setEntry r c).entry r' c' = (decide (r' = r ∧ c' = c) || m.entry r' c') := by
  show (m.vec.storage.setBit (m.index r c)).readBit (m.index r' c') = _
  rw [Memory.readBit_setBit, decide_eq_decide.mpr (index_inj hc hc'), MatRec.entry]

/-- Column `c < 8` of row 0 is bit `c` of the first byte (R45, R95). -/
theorem MatRec.entry_zero_row (m : MatRec) {c : Nat} (hc : c < 8) : m.entry 0 c = m.firstByte.getLsbD c := by
  have hindex : m.index 0 c = 8 * 0 + c := by rw [MatRec.index, Nat.zero_mul, Nat.mul_zero]
  rw [MatRec.entry, hindex, Memory.readBit_mul_add _ 0 hc, MatRec.firstByte]

@[simp] theorem MatRec.firstByte_fromData (x : Byte) (n : Nat) : (MatRec.fromData x n).firstByte = x :=
  Memory.read_write_same _ 0 x

/-- A row made from a byte holds no other byte (R94). -/
theorem MatRec.read_fromData_other (x : Byte) (n : Nat) {j : Nat} (hj : j ≠ 0) :
    (MatRec.fromData x n).vec.storage.read j = 0 :=
  Memory.read_write_other [] x hj

/-- The entries of a row made from a byte: its bits, then 0 from column 8 on (R94). -/
theorem entry_fromData_eq_ite (x : Byte) (n c : Nat) :
    (MatRec.fromData x n).entry 0 c = if c < 8 then x.getLsbD c else false := by
  by_cases hc : c < 8
  · rw [if_pos hc, entry_fromData x n hc]
  · have hbyte : (MatRec.fromData x n).index 0 c / 8 ≠ 0 := by
      rw [MatRec.index]
      omega
    rw [if_neg hc, MatRec.entry, Memory.readBit, MatRec.read_fromData_other x n hbyte]
    exact BitVec.getLsbD_zero

/-! ### Errors -/

/-- Every command that works on a matrix, with an operand that is not live, raises `E_HANDLE` (R91 to R95, R100, R112,
R123). -/
theorem raises_handle_of_deadMat {i : Instr} {h : Handle} {s : State} (hi : h ∈ i.matOperands)
    (hdead : s.block.matOf h = none) : Raises i s .handle := by
  apply raises_of_exec
  cases i
  case bvCreate | bvDelete | bvGetBit | bvSetBit | bvGetByte | bvSetByte | bmCreate | bmFromData => cases hi
  case bmMultiply hA hB =>
    rcases List.mem_pair.mp hi with rfl | rfl
    · simp only [exec, execBmMultiply, hdead]
    · cases hA' : s.block.matOf hA <;> simp only [exec, execBmMultiply, hdead, hA']
  all_goals cases List.mem_singleton.mp hi
  case bmDelete => simp only [exec, execBmDelete, hdead]
  case bmGetBit => simp only [exec, execBmGetBit, hdead]
  case bmSetBit => simp only [exec, execBmSetBit, hdead]
  case bmToData => simp only [exec, execBmToData, toDataWith, hdead]
  case hamEncode => simp only [exec, execHamEncode, hdead]
  case hamDecode => simp only [exec, execHamDecode, hdead]

/-! ### Creation and deletion -/

theorem raises_alloc_bmCreate {r c : Idx} (hbig : Config.bitLimit ≤ r.toNat * c.toNat) (s : State) :
    Raises (.bmCreate r c) s .alloc :=
  raises_of_exec (by simp only [exec, execBmCreate, if_neg (Nat.not_lt.mpr hbig)])

theorem exec_bmCreate_of_refused {r c : Idx} {s : State} (hfits : sizeFits r.toNat c.toNat)
    (hg : s.grantMatrix (r.toNat * c.toNat) = none) :
    exec (.bmCreate r c) s = .next (s.afterDraw.raise .alloc) := by
  simp only [exec, execBmCreate, if_pos hfits, hg]

theorem exec_bmCreate_of_granted {r c : Idx} {s : State} {h : Handle} (hfits : sizeFits r.toNat c.toNat)
    (hg : s.grantMatrix (r.toNat * c.toNat) = some h) :
    exec (.bmCreate r c) s =
      .next ((s.afterDraw.setBlock (s.block.putMat h (MatRec.zero r.toNat c.toNat))).respond .ok (some h)) := by
  simp only [exec, execBmCreate, if_pos hfits, hg]

theorem raises_range_bmFromData (x : Byte) {n : Idx} (hn : n.toNat = 0) (s : State) :
    Raises (.bmFromData x n) s .range :=
  raises_of_exec (by simp only [exec, execBmFromData, if_pos hn])

theorem exec_bmFromData_of_refused (x : Byte) {n : Idx} {s : State} (hn : n.toNat ≠ 0)
    (hg : s.grantMatrix n.toNat = none) : exec (.bmFromData x n) s = .next (s.afterDraw.raise .alloc) := by
  simp only [exec, execBmFromData, if_neg hn, hg]

theorem exec_bmFromData_of_granted (x : Byte) {n : Idx} {s : State} {h : Handle} (hn : n.toNat ≠ 0)
    (hg : s.grantMatrix n.toNat = some h) :
    exec (.bmFromData x n) s =
      .next ((s.afterDraw.setBlock (s.block.putMat h (MatRec.fromData x n.toNat))).respond .ok (some h)) := by
  simp only [exec, execBmFromData, if_neg hn, hg]

theorem exec_bmDelete_of_live {h : Handle} {s : State} (hlive : s.block.matOf h ≠ none) :
    exec (.bmDelete h) s = .next ((s.setBlock (s.block.delMat h)).respond .ok none) := by
  obtain ⟨m, hm⟩ := Option.ne_none_iff_exists'.mp hlive
  simp only [exec, execBmDelete, hm]

/-! ### Access to a live matrix -/

/-- `BM_TO_DATA` takes the strict form on this hardware (R95; log 13). -/
theorem exec_bmToData (h : Handle) (s : State) : exec (.bmToData h) s = toDataWith true h s := rfl

theorem toDataWith_of_dead (strict : Bool) {h : Handle} {s : State} (hdead : s.block.matOf h = none) :
    toDataWith strict h s = .next (s.raise .handle) := by
  simp only [toDataWith, hdead]

section
variable {h : Handle} {r c : Idx} {s : State} {m : MatRec} (hm : s.block.matOf h = some m)
include hm

theorem exec_bmGetBit_of_inRange (hrc : m.hasEntry r.toNat c.toNat) :
    exec (.bmGetBit h r c) s = .next (s.respond .ok (some (valOfBit (m.entry r.toNat c.toNat)))) := by
  simp only [exec, execBmGetBit, hm, if_pos hrc]

theorem raises_range_bmGetBit (hrc : ¬ m.hasEntry r.toNat c.toNat) : Raises (.bmGetBit h r c) s .range :=
  raises_of_exec (by simp only [exec, execBmGetBit, hm, if_neg hrc])

theorem exec_bmSetBit_of_inRange (hrc : m.hasEntry r.toNat c.toNat) :
    exec (.bmSetBit h r c) s =
      .next ((s.setBlock (s.block.putMat h (m.setEntry r.toNat c.toNat))).respond .ok none) := by
  simp only [exec, execBmSetBit, hm, if_pos hrc]

theorem raises_range_bmSetBit (hrc : ¬ m.hasEntry r.toNat c.toNat) : Raises (.bmSetBit h r c) s .range :=
  raises_of_exec (by simp only [exec, execBmSetBit, hm, if_neg hrc])

theorem exec_bmToData_of_byteRow (hrow : m.isByteRow) :
    exec (.bmToData h) s = .next (s.respond .ok (some (valOfByte m.firstByte))) := by
  simp only [exec_bmToData, toDataWith, hm, if_true, if_pos hrow]

theorem raises_shape_bmToData (hrow : ¬ m.isByteRow) : Raises (.bmToData h) s .shape :=
  raises_of_exec (by simp only [exec_bmToData, toDataWith, hm, if_true, if_neg hrow])

theorem toDataWith_false_of_noBits (h0 : m.rows * m.cols = 0) : toDataWith false h s = .next (s.raise .range) := by
  simp only [toDataWith, hm, Bool.false_eq_true, if_false, if_pos h0]

theorem toDataWith_false_of_bits (h0 : m.rows * m.cols ≠ 0) :
    toDataWith false h s = .next (s.respond .ok (some (valOfByte m.firstByte))) := by
  simp only [toDataWith, hm, Bool.false_eq_true, if_false, if_neg h0]

/-- An entry in range that is known is what `BM_GET_BIT` answers (R92). -/
theorem bmGetBit_answers_of_entry {x : Bool} (hrc : m.hasEntry r.toNat c.toNat) (hx : m.entry r.toNat c.toNat = x) :
    ∃ u, exec (.bmGetBit h r c) s = .next u ∧ Answered s u .ok (some (valOfBit x)) := by
  subst hx
  exact ⟨_, exec_bmGetBit_of_inRange hm hrc, rfl, rfl⟩

end

/-! ### The properties P6 to P9 of R97 -/

/-- P6, P7: a byte made into a row of 1 to 8 columns is read back whole. -/
theorem bmToData_after_bmFromData {x : Byte} {n : Idx} {h : Handle} {s t : State} (hlo : 1 ≤ n.toNat)
    (hhi : n.toNat ≤ 8) (hg : s.grantMatrix n.toNat = some h) (ht : exec (.bmFromData x n) s = .next t) :
    ∃ u, exec (.bmToData h) t = .next u ∧ Answered t u .ok (some (valOfByte x)) := by
  cases (exec_bmFromData_of_granted x (Nat.ne_of_gt hlo) hg).symm.trans ht
  have hnew := Block.matOf_putMat_same s.block h (MatRec.fromData x n.toNat)
  refine ⟨_, exec_bmToData_of_byteRow (m := MatRec.fromData x n.toNat) hnew ⟨rfl, hlo, hhi⟩, ?_, rfl⟩
  rw [MatRec.firstByte_fromData, State.respond_responses]

/-- P8: after `BM_SET_BIT`, an entry reads 1 if it is the entry set, and as before otherwise. -/
theorem bmGetBit_after_bmSetBit {h : Handle} {r c r' c' : Idx} {m : MatRec} {s t : State}
    (hm : s.block.matOf h = some m) (hrc : m.hasEntry r.toNat c.toNat) (hrc' : m.hasEntry r'.toNat c'.toNat)
    (ht : exec (.bmSetBit h r c) s = .next t) :
    ∃ u, exec (.bmGetBit h r' c') t = .next u ∧
      Answered t u .ok (some (valOfBit (decide ((r', c') = (r, c)) || m.entry r'.toNat c'.toNat))) := by
  cases (exec_bmSetBit_of_inRange hm hrc).symm.trans ht
  have hnew := Block.matOf_putMat_same s.block h (m.setEntry r.toNat c.toNat)
  have hsame : (r'.toNat = r.toNat ∧ c'.toNat = c.toNat) ↔ (r', c') = (r, c) := by
    rw [BitVec.toNat_inj, BitVec.toNat_inj, Prod.mk.injEq]
  refine bmGetBit_answers_of_entry (m := m.setEntry r.toNat c.toNat) hnew hrc' ?_
  rw [MatRec.entry_setEntry hrc.2 hrc'.2, decide_eq_decide.mpr hsame]

/-- P9: a new matrix reads 0. -/
theorem bmGetBit_after_bmCreate {rows cols r c : Idx} {h : Handle} {s t : State}
    (hfits : sizeFits rows.toNat cols.toNat) (hg : s.grantMatrix (rows.toNat * cols.toNat) = some h)
    (ht : exec (.bmCreate rows cols) s = .next t) (hr : r.toNat < rows.toNat) (hc : c.toNat < cols.toNat) :
    ∃ u, exec (.bmGetBit h r c) t = .next u ∧ Answered t u .ok (some 0) := by
  cases (exec_bmCreate_of_granted hfits hg).symm.trans ht
  have hnew := Block.matOf_putMat_same s.block h (MatRec.zero rows.toNat cols.toNat)
  exact bmGetBit_answers_of_entry (m := MatRec.zero rows.toNat cols.toNat) hnew ⟨hr, hc⟩ (entry_zero _ _ _ _)

end Machine

end Sys2Proof

open Sys2Proof Sys2Proof.Machine

/-- Settles O37, property by property; P10 is the frame of the matrix commands. -/
theorem bitMatrixPropertiesHold : Obligations.BitMatrixPropertiesHold := by
  refine ⟨fun x n h s t hlo hhi hg ht => bmToData_after_bmFromData hlo hhi hg ht,
    fun h r c r' c' m s t hm hr hc hr' hc' ht => ⟨?_, fun hne => ?_⟩,
    fun rows cols r c h s t hfits hg ht hr hc => bmGetBit_after_bmCreate hfits hg ht hr hc, fun i s t ht => ?_⟩
  · simpa [valOfBit] using bmGetBit_after_bmSetBit hm ⟨hr, hc⟩ ⟨hr, hc⟩ ht
  · obtain ⟨u, hu, hans⟩ := bmGetBit_answers_of_entry hm ⟨hr', hc'⟩ rfl
    obtain ⟨u', hu', hans'⟩ := bmGetBit_after_bmSetBit hm ⟨hr, hc⟩ ⟨hr', hc'⟩ ht
    rw [decide_eq_false hne, Bool.false_or] at hans'
    exact ⟨_, u, u', hu, hans, hu', hans'⟩
  · obtain ⟨-, r, -, he⟩ := exec_answers ht
    exact he.frame_of_isMatrixCommand

/-- Settles O30, by the size test, then by whether the draw is granted. -/
theorem bmCreateMakesAZeroMatrix : Obligations.BmCreateMakesAZeroMatrix := by
  refine ⟨fun r c x => decode_toWord _, fun r c s =>
    ⟨fun hbig => raises_alloc_bmCreate hbig s, fun hfits => ⟨fun hg => ?_, fun h hg => ?_⟩⟩⟩
  · exact ⟨_, exec_bmCreate_of_refused hfits hg, ⟨rfl, rfl⟩, rfl, rfl, rfl⟩
  · obtain ⟨-, h0, hfree⟩ := State.grantMatrix_eq_some.mp hg
    exact ⟨_, _, exec_bmCreate_of_granted hfits hg, ⟨rfl, rfl⟩, hfree, h0, Block.matOf_putMat_same _ h _, rfl, rfl, rfl,
      Memory.read_nil, fun h' => Block.matOf_putMat_other _ _, rfl, ⟨rfl, rfl⟩, rfl, rfl⟩

/-- Settles O31, by whether the handle is live; after the deletion it is dead to `HAM_ENCODE`, cached nibble or not. -/
theorem bmDeleteRemovesTheMatrix : Obligations.BmDeleteRemovesTheMatrix := by
  refine ⟨fun h b c => decode_toWord _, fun h s =>
    ⟨raises_handle_of_deadMat (List.mem_singleton_self h), fun hlive => ?_⟩⟩
  have hdead : (s.block.delMat h).matOf h = none := Block.matOf_delMat_same _ h
  exact ⟨_, exec_bmDelete_of_live hlive, ⟨rfl, rfl⟩, hdead, fun h' => Block.matOf_delMat_other _, rfl, ⟨rfl, rfl⟩,
    ⟨rfl, rfl⟩, fun msg => raises_handle_of_deadMat (List.mem_singleton_self h) hdead⟩

/-- Settles O32; the entry read is a quotient of its byte modulo 2. -/
theorem bmGetBitReadsTheEntry : Obligations.BmGetBitReadsTheEntry := by
  refine ⟨fun h r c => decode_toWord _, fun h r c s => ⟨raises_handle_of_deadMat (List.mem_singleton_self h), fun m hm =>
    ⟨fun hout => raises_range_bmGetBit hm (MatRec.not_hasEntry hout), fun hr hc => ?_⟩⟩⟩
  rw [← valOfBit_getLsbD]
  exact ⟨_, exec_bmGetBit_of_inRange hm ⟨hr, hc⟩, ⟨rfl, rfl⟩, rfl, rfl, rfl⟩

/-- Settles O33, by the reads after a bit is set and after a matrix is put. -/
theorem bmSetBitSetsTheEntry : Obligations.BmSetBitSetsTheEntry := by
  refine ⟨fun h r c => decode_toWord _, fun h r c s => ⟨raises_handle_of_deadMat (List.mem_singleton_self h), fun m hm =>
    ⟨fun hout => raises_range_bmSetBit hm (MatRec.not_hasEntry hout), fun hr hc => ?_⟩⟩⟩
  exact ⟨_, _, exec_bmSetBit_of_inRange hm ⟨hr, hc⟩, ⟨rfl, rfl⟩, Block.matOf_putMat_same _ h _, rfl, rfl, rfl,
    Memory.read_setBit m.vec.storage (m.index r.toNat c.toNat), fun h' => Block.matOf_putMat_other _ _, rfl, ⟨rfl, rfl⟩,
    rfl, rfl⟩

/-- Settles O34, by whether the length is 0, then by whether the draw is granted. -/
theorem bmFromDataMakesAByteRow : Obligations.BmFromDataMakesAByteRow := by
  refine ⟨fun a n c => ?_, fun x n s =>
    ⟨fun h0 => raises_range_bmFromData x h0 s, fun h0 => ⟨fun hg => ?_, fun h hg => ?_⟩⟩⟩
  · rw [← lowByte_eq_setWidth]
    exact decode_toWord _
  · exact ⟨_, exec_bmFromData_of_refused x h0 hg, ⟨rfl, rfl⟩, rfl, rfl, rfl⟩
  · obtain ⟨-, hnull, hfree⟩ := State.grantMatrix_eq_some.mp hg
    exact ⟨_, _, exec_bmFromData_of_granted x h0 hg, ⟨rfl, rfl⟩, hfree, hnull, Block.matOf_putMat_same _ h _, rfl, rfl,
      rfl, MatRec.firstByte_fromData x _, fun j => MatRec.read_fromData_other x _, fun c _ => entry_fromData_eq_ite x _ c,
      fun h' => Block.matOf_putMat_other _ _, rfl, ⟨rfl, rfl⟩, rfl, rfl⟩

/-- Settles O35, by the shape; every column of a byte row is a bit of its first byte. -/
theorem bmToDataReadsTheRowByte : Obligations.BmToDataReadsTheRowByte := by
  refine ⟨fun h b c => decode_toWord _, fun h s => ⟨raises_handle_of_deadMat (List.mem_singleton_self h), fun m hm =>
    ⟨raises_shape_bmToData hm, fun hrows hlo hhi => ?_⟩⟩⟩
  exact ⟨_, exec_bmToData_of_byteRow hm ⟨hrows, hlo, hhi⟩, ⟨rfl, rfl⟩, rfl, ⟨rfl, rfl⟩,
    fun c hc => (m.entry_zero_row (Nat.lt_of_lt_of_le hc hhi)).symm⟩

/-- Settles O36, by whether the matrix has bits. -/
theorem nonStrictToDataReadsAnyFirstByte : Obligations.NonStrictToDataReadsAnyFirstByte :=
  fun _ _ => ⟨toDataWith_of_dead false, fun _ hm => ⟨toDataWith_false_of_noBits hm, toDataWith_false_of_bits hm⟩⟩

end

section
/-! SUPPORT. The next state of `BM_MULTIPLY`, one equation per branch of its meaning, and the algebra of the product on its
entries; with them the statements about the multiply (spec/42_gf2_multiply.md R100 to R104). -/

namespace Sys2Proof.Machine

/-! ### The command -/

/-- A handle that is not live and one that is are different (R27). -/
theorem Block.ne_of_free_of_live {b : Block} {h h' : Handle} {m : MatRec} (hfree : b.matOf h = none)
    (hlive : b.matOf h' = some m) : h ≠ h' := by
  rintro rfl
  cases hfree.symm.trans hlive

section
variable {hA hB : Handle} {s : State} {A B : MatRec} (hMatA : s.block.matOf hA = some A)
  (hMatB : s.block.matOf hB = some B)
include hMatA hMatB

theorem raises_shape_bmMultiply (hinner : A.cols ≠ B.rows) : Raises (.bmMultiply hA hB) s .shape :=
  raises_of_exec (by simp only [exec, execBmMultiply, hMatA, hMatB, if_neg hinner])

theorem raises_alloc_bmMultiply (hinner : A.cols = B.rows) (hbig : Config.bitLimit ≤ A.rows * B.cols) :
    Raises (.bmMultiply hA hB) s .alloc :=
  raises_of_exec (by simp only [exec, execBmMultiply, hMatA, hMatB, if_pos hinner, if_neg (Nat.not_lt.mpr hbig)])

theorem exec_bmMultiply_of_refused (hinner : A.cols = B.rows) (hfits : sizeFits A.rows B.cols)
    (hg : s.grantMatrix (A.rows * B.cols) = none) :
    exec (.bmMultiply hA hB) s = .next (s.afterDraw.raise .alloc) := by
  simp only [exec, execBmMultiply, hMatA, hMatB, if_pos hinner, if_pos hfits, hg]

theorem exec_bmMultiply_of_granted {h : Handle} (hinner : A.cols = B.rows) (hfits : sizeFits A.rows B.cols)
    (hg : s.grantMatrix (A.rows * B.cols) = some h) :
    exec (.bmMultiply hA hB) s =
      .next ((s.afterDraw.setBlock (s.block.putMat h (gf2Product A B))).respond .ok (some h)) := by
  simp only [exec, execBmMultiply, hMatA, hMatB, if_pos hinner, if_pos hfits, hg]

end

/-! ### The storage of a matrix given by its entries -/

/-- Bits from `m*n` on are padding and read 0 (R102). -/
theorem MatRec.readBit_ofEntries_padding {m n i : Nat} (f : Nat → Nat → Bool) (hi : m * n ≤ i) :
    (MatRec.ofEntries m n f).vec.storage.readBit i = false := by
  rw [MatRec.ofEntries, readBit_packBits, decide_eq_false (Nat.not_lt.mpr hi), Bool.false_and]

theorem packBits_false (n : Nat) : packBits n (fun _ => false) = [] := by
  induction n with
  | zero => rfl
  | succ n ih => rw [packBits, if_neg Bool.false_ne_true, ih]

/-- The matrix whose entries are all 0 is the zero matrix, as a record. -/
theorem MatRec.ofEntries_false (m n : Nat) : MatRec.ofEntries m n (fun _ _ => false) = MatRec.zero m n := by
  rw [MatRec.ofEntries, packBits_false]
  rfl

/-! ### The entries of a product of built operands -/

/-- An entry of the product depends on one row of the left operand and one column of the right one (R101). -/
theorem gf2Cell_congr {A A' B B' : MatRec} {r c : Nat} (hcols : A'.cols = A.cols)
    (hA : ∀ k < A.cols, A'.entry r k = A.entry r k) (hB : ∀ k < A.cols, B'.entry k c = B.entry k c) :
    gf2Cell A' B' r c = gf2Cell A B r c := by
  rw [gf2Cell, gf2Cell, hcols]
  exact xorUpTo_congr fun k hk => by rw [hA k hk, hB k hk]

/-- Products of the same shape whose entries agree are the same record. -/
theorem gf2Product_congr {A A' B B' : MatRec} (hrows : A'.rows = A.rows) (hcols : B'.cols = B.cols)
    (h : ∀ r < A.rows, ∀ c < B.cols, gf2Cell A' B' r c = gf2Cell A B r c) : gf2Product A' B' = gf2Product A B := by
  rw [gf2Product, gf2Product, hrows, hcols]
  exact MatRec.ofEntries_congr h

/-- An entry of `(AB)C` as a double exclusive-or, the outer one over the columns of `B`. -/
theorem gf2Cell_gf2Product_left {A B : MatRec} (C : MatRec) {r : Nat} (c : Nat) (hr : r < A.rows) :
    gf2Cell (gf2Product A B) C r c =
      xorUpTo B.cols fun b => xorUpTo A.cols fun a => A.entry r a && B.entry a b && C.entry b c :=
  xorUpTo_congr fun b (hb : b < B.cols) => by rw [entry_gf2Product hr hb, gf2Cell, xorUpTo_and_right]

/-- An entry of `A(BC)` as a double exclusive-or, the outer one over the columns of `A`. -/
theorem gf2Cell_gf2Product_right {A B C : MatRec} (r : Nat) {c : Nat} (hinner : A.cols = B.rows) (hc : c < C.cols) :
    gf2Cell A (gf2Product B C) r c =
      xorUpTo A.cols fun a => xorUpTo B.cols fun b => A.entry r a && (B.entry a b && C.entry b c) :=
  xorUpTo_congr fun a ha => by rw [entry_gf2Product (hinner ▸ ha) hc, gf2Cell, xorUpTo_and_left]

/-- An entry of `A(B+C)` (R104). -/
theorem gf2Cell_add_right {A B : MatRec} (C : MatRec) (r : Nat) {c : Nat} (hinner : A.cols = B.rows) (hc : c < B.cols) :
    gf2Cell A (B.add C) r c = xor (gf2Cell A B r c) (gf2Cell A C r c) := by
  rw [gf2Cell, gf2Cell, gf2Cell, ← xorUpTo_xor]
  exact xorUpTo_congr fun k hk => by rw [entry_add (hinner ▸ hk) hc, Bool.and_xor_distrib_left]

/-- An entry of `(A+B)C` (R104). -/
theorem gf2Cell_add_left {A B : MatRec} (C : MatRec) {r : Nat} (c : Nat) (hcols : A.cols = B.cols) (hr : r < A.rows) :
    gf2Cell (A.add B) C r c = xor (gf2Cell A C r c) (gf2Cell B C r c) := by
  rw [gf2Cell, gf2Cell, gf2Cell, ← hcols, ← xorUpTo_xor]
  exact xorUpTo_congr fun k hk => by rw [entry_add hr hk, Bool.and_xor_distrib_right]

@[simp] theorem gf2Cell_zero_right (A : MatRec) (m n r c : Nat) : gf2Cell A (MatRec.zero m n) r c = false := by
  simp only [gf2Cell, entry_zero, Bool.and_false, xorUpTo_false]

@[simp] theorem gf2Cell_zero_left (B : MatRec) (m n r c : Nat) : gf2Cell (MatRec.zero m n) B r c = false := by
  simp only [gf2Cell, entry_zero, Bool.false_and, xorUpTo_false]

/-! ### The laws of R104, as equalities of records -/

/-- Associativity: the two double exclusive-ors differ in the order of their ranges. -/
theorem gf2Product_assoc {A B : MatRec} (C : MatRec) (hAB : A.cols = B.rows) :
    gf2Product (gf2Product A B) C = gf2Product A (gf2Product B C) := by
  refine MatRec.ofEntries_congr fun r (hr : r < A.rows) c hc => ?_
  rw [gf2Cell_gf2Product_left C c hr, gf2Cell_gf2Product_right r hAB hc, xorUpTo_comm]
  simp only [Bool.and_assoc]

/-- Multiplication from the left distributes over `⊕`. -/
theorem gf2Product_add {A B C : MatRec} (hinner : A.cols = B.rows) (hcols : B.cols = C.cols) :
    gf2Product A (B.add C) = (gf2Product A B).add (gf2Product A C) := by
  refine MatRec.ofEntries_congr fun r hr c (hc : c < B.cols) => ?_
  rw [gf2Cell_add_right C r hinner hc, entry_gf2Product hr hc, entry_gf2Product hr (hcols ▸ hc)]

/-- Multiplication from the right distributes over `⊕`. -/
theorem add_gf2Product {A B : MatRec} (C : MatRec) (hrows : A.rows = B.rows) (hcols : A.cols = B.cols) :
    gf2Product (A.add B) C = (gf2Product A C).add (gf2Product B C) := by
  refine MatRec.ofEntries_congr fun r (hr : r < A.rows) c hc => ?_
  rw [gf2Cell_add_left C c hcols hr, entry_gf2Product hr hc, entry_gf2Product (hrows ▸ hr) hc]

theorem gf2Product_zero (A : MatRec) (m n : Nat) : gf2Product A (MatRec.zero m n) = MatRec.zero A.rows n :=
  (MatRec.ofEntries_congr fun r _ c _ => gf2Cell_zero_right A m n r c).trans (MatRec.ofEntries_false _ _)

theorem zero_gf2Product (B : MatRec) (m n : Nat) : gf2Product (MatRec.zero m n) B = MatRec.zero m B.cols :=
  (MatRec.ofEntries_congr fun r _ c _ => gf2Cell_zero_left B m n r c).trans (MatRec.ofEntries_false _ _)

/-! ### The one-row product of R103 -/

/-- When row 0 of `A` holds the bits of `x`, the exclusive-or of the rows of `B` that `x` selects holds row 0 of `AB`. -/
theorem getLsbD_xorRows_eq_gf2Cell {A : MatRec} (B : MatRec) {x : Byte} {c : Nat}
    (hx : ∀ a < A.cols, A.entry 0 a = x.getLsbD a) (hc : c < 8) :
    (xorRows A.cols x B).getLsbD c = (decide (c < B.cols) && gf2Cell A B 0 c) := by
  rw [getLsbD_xorRows, gf2Cell, ← xorUpTo_and_left]
  exact xorUpTo_congr fun a ha => by rw [getLsbD_rowByte B a hc, hx a ha, Bool.and_left_comm]

/-- The first byte of a one-row product is the exclusive-or of the selected rows (R103). -/
theorem firstByte_gf2Product_eq_xorRows {A : MatRec} (B : MatRec) {x : Byte} (hrow : A.rows = 1)
    (hx : ∀ a < A.cols, A.entry 0 a = x.getLsbD a) : (gf2Product A B).firstByte = xorRows A.cols x B :=
  BitVec.eq_of_getLsbD_eq fun _ hc => by
    rw [getLsbD_firstByte_product hrow hc, getLsbD_xorRows_eq_gf2Cell B hx hc]

end Sys2Proof.Machine

open Sys2Proof Sys2Proof.Machine

/-- Settles O38, by the checks in their order, then by whether the draw is granted. -/
theorem bmMultiplyMakesTheProduct : Obligations.BmMultiplyMakesTheProduct := by
  refine ⟨fun hA hB c => decode_toWord _, fun hA hB s => ⟨?_, fun A B hMatA hMatB =>
    ⟨raises_shape_bmMultiply hMatA hMatB, raises_alloc_bmMultiply hMatA hMatB, fun hinner hfits =>
      ⟨fun hg => ?_, fun h hg => ?_⟩⟩⟩⟩
  · rintro (hdead | hdead)
    · exact raises_handle_of_deadMat (List.mem_pair.mpr (.inl rfl)) hdead
    · exact raises_handle_of_deadMat (List.mem_pair.mpr (.inr rfl)) hdead
  · exact ⟨_, exec_bmMultiply_of_refused hMatA hMatB hinner hfits hg, ⟨rfl, rfl⟩, rfl, rfl, rfl⟩
  · obtain ⟨-, h0, hfree⟩ := State.grantMatrix_eq_some.mp hg
    have hneA : h ≠ hA := Block.ne_of_free_of_live hfree hMatA
    have hneB : h ≠ hB := Block.ne_of_free_of_live hfree hMatB
    have hother : ∀ h', h' ≠ h → (s.block.putMat h (gf2Product A B)).matOf h' = s.block.matOf h' :=
      fun h' => Block.matOf_putMat_other _ _
    exact ⟨_, exec_bmMultiply_of_granted hMatA hMatB hinner hfits hg, ⟨rfl, rfl⟩, hfree, h0, hneA, hneB,
      Block.matOf_putMat_same _ h _, (hother hA hneA.symm).trans hMatA, (hother hB hneB.symm).trans hMatB, hother, rfl,
      ⟨rfl, rfl⟩, rfl, rfl⟩

/-- Settles O39, by the two forms of the exclusive-or of a range and the congruence of the product. -/
theorem productEntriesAreParities : Obligations.ProductEntriesAreParities := by
  refine fun A B => ⟨rfl, rfl, fun r c hr hc => ?_, fun A' B' hArows hAcols _ hBcols hinner hA hB => ?_⟩
  · rw [entry_gf2Product hr hc]
    exact ⟨xorUpTo_eq_foldl _ _, xorUpTo_eq_true_iff _ _⟩
  · refine gf2Product_congr hArows hBcols fun r hr c hc => ?_
    exact gf2Cell_congr hAcols (fun k hk => hA r k hr hk) fun k hk => hB k c (hinner ▸ hk) hc

/-- Settles O40, by the laws of packed bits; the bit `r*n + c` is the entry by the definition of the index. -/
theorem productStorageIsPacked : Obligations.ProductStorageIsPacked :=
  fun _ _ => ⟨rfl, fun _ => mem_packBits, fun _ _ hr hc => entry_gf2Product hr hc,
    fun _ => MatRec.readBit_ofEntries_padding _, packBits_wf _ _⟩

/-- Settles O41: both sides have the product's entries as their bits. -/
theorem rowProductIsXorOfRows : Obligations.RowProductIsXorOfRows := by
  refine fun A B x hrow _ hcols _ hx => ⟨firstByte_gf2Product_eq_xorRows B hrow hx, fun c hc => ?_, fun a c _ hc =>
    getLsbD_rowByte B a hc⟩
  have hrow0 : 0 < A.rows := hrow ▸ Nat.one_pos
  rw [getLsbD_xorRows_eq_gf2Cell B hx (Nat.lt_of_lt_of_le hc hcols), entry_gf2Product hrow0 hc, decide_eq_true hc,
    Bool.true_and]

/-- Settles O42, law by law. -/
theorem multiplyIsAssociativeAndDistributive : Obligations.MultiplyIsAssociativeAndDistributive :=
  ⟨fun _ _ C hAB _ => gf2Product_assoc C hAB, fun _ _ _ hinner _ hcols => gf2Product_add hinner hcols,
    fun _ _ C hrows hcols _ => add_gf2Product C hrows hcols, fun A => gf2Product_zero A A.cols,
    fun B m => zero_gf2Product B m B.rows⟩

end

section
/-! SUPPORT. The next state of `HAM_ENCODE`, one equation per branch of its meaning, what a successful codec command leaves for
its repeat, and the code as a linear map; with them the statements about the encoder (spec/43_hamming_encoder.md R110 to R116,
spec/44_hamming_decoder.md R128). -/

namespace Sys2Proof.Machine

/-! ### The codeword map of a generator (R103, R112 step 2) -/

theorem xorRows_zero (k : Nat) (M : MatRec) : xorRows k 0 M = 0 :=
  BitVec.eq_of_getLsbD_eq fun c _ => by simp [getLsbD_xorRows]

/-- The rows selected by an exclusive-or, added up. -/
theorem xorRows_xor (k : Nat) (x y : Byte) (M : MatRec) : xorRows k (x ^^^ y) M = xorRows k x M ^^^ xorRows k y M := by
  refine BitVec.eq_of_getLsbD_eq fun c _ => ?_
  rw [BitVec.getLsbD_xor, getLsbD_xorRows, getLsbD_xorRows, getLsbD_xorRows, ← xorUpTo_xor]
  exact xorUpTo_congr fun r _ => by rw [BitVec.getLsbD_xor, Bool.and_xor_distrib_right]

/-- The codeword of a nibble is the exclusive-or of the rows of `G` that the nibble selects. -/
theorem encodeWith_eq_xorRows (G : MatRec) (n : Nibble) : encodeWith G n = xorRows 4 (n.setWidth 8) G :=
  firstByte_gf2Product_eq_xorRows (A := MatRec.fromData (byteOfNibble n) 4) G rfl fun _ (ha : _ < 4) =>
    entry_fromData _ 4 (by omega)

theorem encodeWith_zero (G : MatRec) : encodeWith G 0 = 0 := by
  rw [encodeWith_eq_xorRows]
  exact xorRows_zero 4 G

theorem encodeWith_xor (G : MatRec) (x y : Nibble) : encodeWith G (x ^^^ y) = encodeWith G x ^^^ encodeWith G y := by
  simp only [encodeWith_eq_xorRows, BitVec.setWidth_xor, xorRows_xor]

/-! ### What the compute path stores (R113) -/

theorem Block.encStore_zero (b : Block) (x : Byte) : b.encStore 0 x = b := if_pos rfl

theorem Block.encStore_of_ne_zero (b : Block) {n : Nibble} (hn : n ≠ 0) (x : Byte) :
    b.encStore n x = b.encWrite n x := if_neg hn

theorem Block.encRead_encStore_same (b : Block) {n : Nibble} (hn : n ≠ 0) (x : Byte) : (b.encStore n x).encRead n = x := by
  rw [encStore_of_ne_zero b hn, encRead_encWrite, if_pos rfl]

theorem Block.encRead_encStore_other (b : Block) {n k : Nibble} (hk : k ≠ n) (x : Byte) :
    (b.encStore n x).encRead k = b.encRead k := by
  by_cases hn : n = 0
  · rw [hn, encStore_zero]
  · rw [encStore_of_ne_zero b hn, encRead_encWrite, if_neg hk]

/-- Storing a codeword changes `ENC_CACHE` only (R114). -/
theorem Block.encStore_frame (b : Block) (n : Nibble) (x : Byte) :
    (b.encStore n x).decCache = b.decCache ∧ (b.encStore n x).vec = b.vec ∧ (b.encStore n x).mat = b.mat := by
  by_cases hn : n = 0
  · rw [hn, encStore_zero]
    exact ⟨rfl, rfl, rfl⟩
  · rw [encStore_of_ne_zero b hn]
    exact ⟨rfl, rfl, rfl⟩

theorem Block.matOf_encStore (b : Block) (n : Nibble) (x : Byte) (h : Handle) : (b.encStore n x).matOf h = b.matOf h := by
  obtain ⟨-, -, hmat⟩ := b.encStore_frame n x
  rw [matOf, hmat, matOf]

/-! ### The branches of `HAM_ENCODE` (R112) -/

/-- When both draws are granted, two were made. -/
theorem State.drawIntermediates_snd_of_both {s : State} {a b : Nat} (h : (s.drawIntermediates a b).1 = true) :
    (s.drawIntermediates a b).2 = s.afterDraw.afterDraw := by
  obtain ⟨_, _, hg, -⟩ := (s.drawIntermediates_granted a b).mp h
  exact drawIntermediates_snd_of_granted hg b

section
variable {h : Handle} {msg : Byte} {s : State} {G : MatRec} (hG : s.block.matOf h = some G)
include hG

theorem raises_shape_hamEncode (hgen : ¬ G.isGenerator) : Raises (.hamEncode h msg) s .shape :=
  raises_of_exec (by simp only [exec, execHamEncode, hG, if_neg hgen])

theorem exec_hamEncode_of_hit (hgen : G.isGenerator) (hhit : ¬ s.block.encMiss (nibbleOf msg)) :
    exec (.hamEncode h msg) s = .next (s.respond .ok (some (valOfByte (s.block.encRead (nibbleOf msg))))) := by
  simp only [exec, execHamEncode, hG, if_pos hgen, if_neg hhit]

theorem exec_hamEncode_of_refused (hgen : G.isGenerator) (hmiss : s.block.encMiss (nibbleOf msg))
    (hd : (s.drawIntermediates 4 8).1 = false) :
    exec (.hamEncode h msg) s = .next ((s.drawIntermediates 4 8).2.raise .alloc) := by
  have hpair : s.drawIntermediates 4 8 = (false, (s.drawIntermediates 4 8).2) := Prod.ext hd rfl
  simp only [exec, execHamEncode, hG, if_pos hgen, if_pos hmiss]
  rw [hpair]

theorem exec_hamEncode_of_granted (hgen : G.isGenerator) (hmiss : s.block.encMiss (nibbleOf msg))
    (hd : (s.drawIntermediates 4 8).1 = true) :
    exec (.hamEncode h msg) s =
      .next ((s.afterDraw.afterDraw.setBlock (s.block.encStore (nibbleOf msg) (encodeWith G (nibbleOf msg)))).respond .ok
        (some (valOfByte (encodeWith G (nibbleOf msg))))) := by
  have hpair : s.drawIntermediates 4 8 = (true, s.afterDraw.afterDraw) :=
    Prod.ext hd (State.drawIntermediates_snd_of_both hd)
  simp only [exec, execHamEncode, hG, if_pos hgen, if_pos hmiss, hpair, State.afterDraw_block]

end

/-! ### What a completed command answered -/

theorem Answered.raise {s u : State} (hp : u.pending = s.pending) (hr : u.responses = s.responses) (e : ErrorKind) :
    Answered s (u.raise e) (.error e) none :=
  ⟨by rw [State.raise_responses, hr], hp⟩

/-- A command gives one response, so two accounts of it agree. -/
theorem Answered.unique {s t : State} {st st' : Status} {v v' : Option (BitVec 32)} (h : Answered s t st v)
    (h' : Answered s t st' v') : st = st' ∧ v = v' := by
  have hr : s.responses ++ [⟨st, v⟩] = s.responses ++ [⟨st', v'⟩] := h.1.symm.trans h'.1
  simpa using hr

/-- A command that raises an error answers nothing else. -/
theorem Raises.status_eq {i : Instr} {s t : State} {e : ErrorKind} {st : Status} {v : Option (BitVec 32)}
    (h : Raises i s e) (ht : exec i s = .next t) (hans : Answered s t st v) : st = .error e := by
  obtain ⟨u, hu, hraised, -⟩ := h
  cases hu.symm.trans ht
  exact (hans.unique hraised).1

/-- A `HAM_ENCODE` that answers `OK` found its matrix live, and either read the slot and changed nothing, or computed the
codeword and stored it. -/
theorem hamEncode_ok_cases {h : Handle} {msg : Byte} {s t : State} {v : Option (BitVec 32)}
    (ht : exec (.hamEncode h msg) s = .next t) (hans : Answered s t .ok v) :
    ∃ G, s.block.matOf h = some G ∧
      ((¬ s.block.encMiss (nibbleOf msg) ∧ v = some (valOfByte (s.block.encRead (nibbleOf msg))) ∧ t.block = s.block) ∨
        (s.block.encMiss (nibbleOf msg) ∧ v = some (valOfByte (encodeWith G (nibbleOf msg))) ∧
          t.block = s.block.encStore (nibbleOf msg) (encodeWith G (nibbleOf msg)))) := by
  cases hG : s.block.matOf h with
  | none => cases (raises_handle_of_deadMat (List.mem_singleton_self h) hG).status_eq ht hans
  | some G =>
    refine ⟨G, rfl, ?_⟩
    by_cases hgen : G.isGenerator
    · by_cases hmiss : s.block.encMiss (nibbleOf msg)
      · cases hd : (s.drawIntermediates 4 8).1 with
        | false =>
          cases (exec_hamEncode_of_refused hG hgen hmiss hd).symm.trans ht
          have herror := Answered.raise (s.drawIntermediates_pending 4 8) (s.drawIntermediates_responses 4 8) .alloc
          cases (hans.unique herror).1
        | true =>
          cases (exec_hamEncode_of_granted hG hgen hmiss hd).symm.trans ht
          exact .inr ⟨hmiss, (hans.unique ⟨rfl, rfl⟩).2, rfl⟩
      · cases (exec_hamEncode_of_hit hG hgen hmiss).symm.trans ht
        exact .inl ⟨hmiss, (hans.unique ⟨rfl, rfl⟩).2, rfl⟩
    · cases (raises_shape_hamEncode hG hgen).status_eq ht hans

/-- A `HAM_ENCODE` that answers `OK` leaves its matrix live, and its answer is what the repeat will compute on a miss and
what it will read on a hit. -/
theorem hamEncode_leaves_answer {h : Handle} {msg : Byte} {s t : State} {v : Option (BitVec 32)}
    (ht : exec (.hamEncode h msg) s = .next t) (hans : Answered s t .ok v) :
    ∃ G, t.block.matOf h = some G ∧
      (t.block.encMiss (nibbleOf msg) → v = some (valOfByte (encodeWith G (nibbleOf msg)))) ∧
      (¬ t.block.encMiss (nibbleOf msg) → v = some (valOfByte (t.block.encRead (nibbleOf msg)))) := by
  obtain ⟨G, hG, ⟨hhit, hv, hb⟩ | ⟨-, hv, hb⟩⟩ := hamEncode_ok_cases ht hans
  · rw [hb]
    exact ⟨G, hG, fun hmiss => absurd hmiss hhit, fun _ => hv⟩
  · rw [hb]
    refine ⟨G, (Block.matOf_encStore _ _ _ h).trans hG, fun _ => hv, fun hhit => ?_⟩
    rw [Block.encRead_encStore_same _ (not_or.mp hhit).1]
    exact hv

/-- The encode cache goes on agreeing with a matrix through every command but a `HAM_ENCODE` given another one (R165). -/
theorem Effect.encAgrees {i : Instr} {b b' : Block} {r : Response} {M : MatRec} (he : Effect i b b' r)
    (hM : ∀ h msg, i = .hamEncode h msg → b.matOf h = some M) (hagree : b.encAgrees M) : b'.encAgrees M := by
  intro n hn
  rcases he.encRead_cases n with hsame | ⟨-, -, h, G, msg, hi, -, hG, hfilled⟩
  · rw [hsame] at hn ⊢
    exact hagree n hn
  · cases hG.symm.trans (hM h msg hi)
    exact hfilled

/-! ### A decode repeated (R124, R128) -/

theorem biased_ne_zero (syn : Nibble) : biased syn ≠ 0 := by
  revert syn
  decide

/-- The response a received byte gets from what the decode cache holds for it (R123, R124). -/
def Block.decResponse (b : Block) (code : Byte) : Response :=
  correct (correctionTable (unbiased (b.decRead code))) code

section
variable {h : Handle} {code : Byte} {s : State} {H : MatRec} (hH : s.block.matOf h = some H)
include hH

theorem raises_shape_hamDecode (hpar : ¬ H.isParityCheck) : Raises (.hamDecode h code) s .shape :=
  raises_of_exec (by simp only [exec, execHamDecode, hH, if_neg hpar])

theorem exec_hamDecode_of_noSyndrome {u : State} (hpar : H.isParityCheck) (hu : syndromeOf H code s = (none, u)) :
    exec (.hamDecode h code) s = .next (u.raise .alloc) := by
  simp only [exec, execHamDecode, hH, if_pos hpar, hu]

theorem exec_hamDecode_of_syndrome {syn : Nibble} {u : State} (hpar : H.isParityCheck)
    (hu : syndromeOf H code s = (some syn, u)) :
    exec (.hamDecode h code) s =
      .next (u.respond (correct (correctionTable syn) code).status (correct (correctionTable syn) code).val) := by
  simp only [exec, execHamDecode, hH, if_pos hpar, hu]

/-- On a hit a decode draws nothing and changes nothing but the responses. -/
theorem exec_hamDecode_of_hit (hpar : H.isParityCheck) (hhit : s.block.decRead code ≠ 0) :
    exec (.hamDecode h code) s =
      .next (s.respond (s.block.decResponse code).status (s.block.decResponse code).val) :=
  exec_hamDecode_of_syndrome hH hpar (by rw [syndromeOf, if_neg hhit])

end

/-- A `HAM_DECODE` that answers without an error leaves its matrix live and the slot full, and the slot gives its response. -/
theorem hamDecode_leaves_hit {h : Handle} {code : Byte} {s t : State} {r : Response}
    (ht : exec (.hamDecode h code) s = .next t) (hr : t.responses = s.responses ++ [r]) (hok : ∀ e, r.status ≠ .error e) :
    ∃ H, t.block.matOf h = some H ∧ H.isParityCheck ∧ t.block.decRead code ≠ 0 ∧ r = t.block.decResponse code := by
  have hans : Answered s t r.status r.val := ⟨hr, (exec_answers ht).1⟩
  cases hH : s.block.matOf h with
  | none => exact absurd ((raises_handle_of_deadMat (List.mem_singleton_self h) hH).status_eq ht hans) (hok _)
  | some H =>
    by_cases hpar : H.isParityCheck
    · rcases syndromeOf_cases H code s with ⟨u, hu, hp, hresp, -⟩ | ⟨u, hu, hp, hresp, -, hb⟩ | ⟨hhit, hu⟩
      · cases (exec_hamDecode_of_noSyndrome hH hpar hu).symm.trans ht
        exact absurd (hans.unique (Answered.raise hp hresp .alloc)).1 (hok _)
      · cases (exec_hamDecode_of_syndrome hH hpar hu).symm.trans ht
        have hread : (s.block.decWrite code (biased (syndromeWith H code))).decRead code = biased (syndromeWith H code) := by
          rw [Block.decRead_decWrite, if_pos rfl]
        rw [State.respond_responses, hresp] at hr
        rw [State.respond_block, hb, Block.decResponse, hread, unbiased_biased]
        exact ⟨H, hH, hpar, biased_ne_zero _, (List.singleton_inj.mp (List.append_cancel_left hr)).symm⟩
      · cases (exec_hamDecode_of_syndrome hH hpar hu).symm.trans ht
        exact ⟨H, hH, hpar, hhit, (List.singleton_inj.mp (List.append_cancel_left hr)).symm⟩
    · exact absurd ((raises_shape_hamDecode hH hpar).status_eq ht hans) (hok _)

/-! ### The code of `G_REF` (R111, R116) -/

/-- The table of codewords of R116. -/
def refCodeword (n : Nibble) : Byte :=
  [0x00, 0xE1, 0xD2, 0x33, 0xB4, 0x55, 0x66, 0x87, 0x78, 0x99, 0xAA, 0x4B, 0xCC, 0x2D, 0x1E, 0xFF].getD n.toNat 0

/-- The table is the code of `G_REF`. -/
theorem encodeWith_gRef (n : Nibble) : encodeWith gRef n = refCodeword n := by
  revert n
  decide

/-- The low nibble of a codeword is its message: the code is systematic. -/
theorem refCodeword_setWidth (n : Nibble) : (refCodeword n).setWidth 4 = n := by
  revert n
  decide

theorem weight_refCodeword {n : Nibble} (h0 : n ≠ 0) (h15 : n ≠ 15) : weight (refCodeword n) = 4 := by
  revert n
  decide

theorem weight_refCodeword_fifteen : weight (refCodeword 15) = 8 := by decide

/-- The least weight of a codeword other than 0. -/
theorem four_le_weight_refCodeword {n : Nibble} (h0 : n ≠ 0) : 4 ≤ weight (refCodeword n) := by
  by_cases h15 : n = 15
  · rw [h15, weight_refCodeword_fifteen]
    decide
  · exact Nat.le_of_eq (weight_refCodeword h0 h15).symm

end Sys2Proof.Machine

open Sys2Proof Sys2Proof.Machine

/-- Settles O43, by the checks in their order, then by hit or miss, then by whether the draws are granted. -/
theorem hamEncodeAnswersTheCodeword : Obligations.HamEncodeAnswersTheCodeword := by
  refine ⟨fun h b c => ?_, fun G n _ _ => encodeWith_eq_xorRows G n, fun h msg s =>
    ⟨raises_handle_of_deadMat (List.mem_singleton_self h), fun G hG =>
      ⟨raises_shape_hamEncode hG, fun hrows hcols n byte hn hbyte => ?_⟩⟩⟩
  · rw [← lowByte_eq_setWidth]
    exact decode_toWord _
  · have hgen : G.isGenerator := ⟨hrows, hcols⟩
    rw [← nibbleOf_eq_setWidth] at hn
    have hcodeword : byte = encodeWith G n := hbyte
    subst hn hcodeword
    refine ⟨fun hn0 hhit => ?_, fun hmiss hd => ?_, fun hmiss hd => ?_⟩
    · exact ⟨_, exec_hamEncode_of_hit hG hgen (not_or.mpr ⟨hn0, hhit⟩), ⟨rfl, rfl⟩, rfl, rfl, rfl⟩
    · refine ⟨_, exec_hamEncode_of_refused hG hgen hmiss hd,
        .raise (s.drawIntermediates_pending 4 8) (s.drawIntermediates_responses 4 8) _, s.drawIntermediates_block 4 8,
        fun hg => ?_, fun hg => ?_⟩
      · rw [State.drawIntermediates_of_refused hg]
        exact ⟨rfl, rfl⟩
      · obtain ⟨t1, ht1⟩ := Option.ne_none_iff_exists'.mp hg
        rw [State.drawIntermediates_snd_of_granted ht1]
        exact ⟨rfl, rfl⟩
    · refine ⟨_, exec_hamEncode_of_granted hG hgen hmiss hd, ⟨rfl, rfl⟩, fun h0 => ?_,
        fun hn0 => Block.encRead_encStore_same _ hn0 _, fun k hk => Block.encRead_encStore_other _ hk _, ?_⟩
      · rw [h0]
        exact ⟨encodeWith_zero G, Block.encStore_zero s.block (encodeWith G 0)⟩
      · obtain ⟨hdec, hvec, hmat⟩ := s.block.encStore_frame (nibbleOf msg) (encodeWith G (nibbleOf msg))
        exact ⟨hdec, hvec, hmat, rfl, rfl⟩

/-- Settles O45: a hit reads a slot that agrees, a miss computes; the codeword is an exclusive-or of rows. -/
theorem encodeIsPureAndLinear : Obligations.EncodeIsPureAndLinear := by
  refine ⟨fun G h msg s t v _ _ hG hagree ht hans => ⟨?_, ?_⟩, fun G _ _ =>
    ⟨encodeWith_zero G, encodeWith_eq_xorRows G, encodeWith_xor G⟩⟩
  · rw [← nibbleOf_eq_setWidth]
    obtain ⟨G', hG', ⟨hhit, hv, -⟩ | ⟨-, hv, -⟩⟩ := hamEncode_ok_cases ht hans
    · rw [hv, hagree _ (not_or.mp hhit).2]
      rfl
    · cases hG.symm.trans hG'
      exact hv
  · obtain ⟨-, r, -, he⟩ := exec_answers ht
    refine he.encAgrees (fun h' msg' hi => ?_) hagree
    cases hi
    exact hG

/-- Settles O47: an encode leaves its answer to the repeat, whether that hits or misses; a decode leaves a full slot, which
the repeat hits. -/
theorem repeatedCodecCommandsAnswerTheSame : Obligations.RepeatedCodecCommandsAnswerTheSame := by
  refine ⟨fun h msg s t u v v' ht hans hu hans' => ?_, fun h code s t r ht hr hok => ?_⟩
  · obtain ⟨G, hG, hvmiss, hvhit⟩ := hamEncode_leaves_answer ht hans
    obtain ⟨G', hG', ⟨hhit, hv', -⟩ | ⟨hmiss, hv', -⟩⟩ := hamEncode_ok_cases hu hans'
    · exact hv'.trans (hvhit hhit).symm
    · cases hG.symm.trans hG'
      exact hv'.trans (hvmiss hmiss).symm
  · obtain ⟨H, hH, hpar, hhit, rfl⟩ := hamDecode_leaves_hit ht hr hok
    exact ⟨_, exec_hamDecode_of_hit hH hpar hhit, rfl, rfl, rfl, rfl⟩

/-- Settles O48, by the table; the distance of two codewords is the weight of the codeword of their messages' exclusive-or. -/
theorem referenceCodewordsAreTheTable : Obligations.ReferenceCodewordsAreTheTable := by
  refine ⟨encodeWith_gRef, fun n => ?_, fun n h0 h15 => ?_, ?_, fun m n hne => ?_⟩
  · rw [encodeWith_gRef, refCodeword_setWidth]
  · rw [encodeWith_gRef, weight_refCodeword h0 h15]
  · rw [encodeWith_gRef, weight_refCodeword_fifteen]
  · have hxor : m ^^^ n ≠ 0 := fun h => hne (BitVec.xor_eq_zero_iff.mp h)
    rw [← encodeWith_xor, encodeWith_gRef]
    exact four_le_weight_refCodeword hxor

end

section
/-! SUPPORT. The syndrome as an exclusive-or of rows, the branches of `syndrome_of`, and the response an entry of the
correction table gives; with them the statements about the decoder's commands (spec/44_hamming_decoder.md R120 to R127). -/

namespace Sys2Proof.Machine

/-! ### The syndrome map of a parity-check matrix (R103, R124) -/

/-- The first byte of the syndrome product is the exclusive-or of the rows of `Hᵗ` that the byte selects. -/
theorem firstByte_gf2Product_fromData (H : MatRec) (code : Byte) :
    (gf2Product (MatRec.fromData code 8) H).firstByte = xorRows 8 code H :=
  firstByte_gf2Product_eq_xorRows (A := MatRec.fromData code 8) H rfl fun _ => entry_fromData code 8

theorem syndromeWith_eq_xorRows (H : MatRec) (code : Byte) : syndromeWith H code = (xorRows 8 code H).setWidth 4 := by
  rw [syndromeWith, firstByte_gf2Product_fromData, nibbleOf_eq_setWidth]

/-- An exclusive-or of rows has no bit beyond the last column. -/
theorem getLsbD_xorRows_of_cols_le {M : MatRec} {c : Nat} (hc : M.cols ≤ c) (hc8 : c < 8) (k : Nat) (x : Byte) :
    (xorRows k x M).getLsbD c = false := by
  simp only [getLsbD_xorRows, getLsbD_rowByte M _ hc8, decide_eq_false (Nat.not_lt.mpr hc), Bool.false_and, Bool.and_false,
    xorUpTo_false]

/-- With 4 columns the syndrome is the whole exclusive-or, not only its low nibble. -/
theorem setWidth_syndromeWith {H : MatRec} (hcols : H.cols = 4) (code : Byte) :
    (syndromeWith H code).setWidth 8 = xorRows 8 code H := by
  refine BitVec.eq_of_getLsbD_eq fun c hc => ?_
  rw [syndromeWith_eq_xorRows, BitVec.getLsbD_setWidth, BitVec.getLsbD_setWidth, decide_eq_true hc, Bool.true_and]
  by_cases h4 : c < 4
  · rw [decide_eq_true h4, Bool.true_and]
  · rw [decide_eq_false h4, Bool.false_and, getLsbD_xorRows_of_cols_le (by omega) hc]

/-! ### The decode cache (R29, R124) -/

theorem biased_toNat (syn : Nibble) : (biased syn).toNat = syn.toNat + 1 := by
  revert syn
  decide

/-- A slot holds a syndrome plus one exactly when it is the biased syndrome. -/
theorem eq_biased_of_toNat {x : Byte} {syn : Nibble} (h : x.toNat = syn.toNat + 1) : x = biased syn :=
  BitVec.eq_of_toNat_eq (h.trans (biased_toNat syn).symm)

theorem Block.decRead_decWrite_other (b : Block) {k k' : Byte} (hne : k' ≠ k) (x : Byte) :
    (b.decWrite k x).decRead k' = b.decRead k' := by
  rw [decRead_decWrite, if_neg hne]

/-! ### The draws of the compute path (R27, R112, R124) -/

/-- One draw was made when the first is refused, and two when it is granted. -/
theorem State.drawIntermediates_draws (s : State) (a b : Nat) :
    (s.grantMatrix a = none → DrewOnce s (s.drawIntermediates a b).2) ∧
      (s.grantMatrix a ≠ none → DrewTwice s (s.drawIntermediates a b).2) := by
  refine ⟨fun hg => ?_, fun hg => ?_⟩
  · rw [drawIntermediates_of_refused hg]
    exact ⟨rfl, rfl⟩
  · obtain ⟨t1, ht1⟩ := Option.ne_none_iff_exists'.mp hg
    rw [drawIntermediates_snd_of_granted ht1]
    exact ⟨rfl, rfl⟩

/-! ### The branches of `syndrome_of` (R124) -/

/-- The state after a syndrome was computed: two draws made and the slot filled. -/
def State.syndromeStored (s : State) (H : MatRec) (code : Byte) : State :=
  s.afterDraw.afterDraw.setBlock (s.block.decWrite code (biased (syndromeWith H code)))

theorem State.decRead_syndromeStored_toNat (s : State) (H : MatRec) (code : Byte) :
    ((s.syndromeStored H code).block.decRead code).toNat = (syndromeWith H code).toNat + 1 := by
  rw [syndromeStored, setBlock_block, Block.decRead_decWrite, if_pos rfl, biased_toNat]

section
variable {code : Byte} {s : State} (H : MatRec)

theorem syndromeOf_of_refused (hmiss : s.block.decRead code = 0) (hd : (s.drawIntermediates 8 4).1 = false) :
    syndromeOf H code s = (none, (s.drawIntermediates 8 4).2) := by
  have hpair : s.drawIntermediates 8 4 = (false, (s.drawIntermediates 8 4).2) := Prod.ext hd rfl
  rw [syndromeOf, if_pos hmiss, hpair]

theorem syndromeOf_of_granted (hmiss : s.block.decRead code = 0) (hd : (s.drawIntermediates 8 4).1 = true) :
    syndromeOf H code s = (some (syndromeWith H code), s.syndromeStored H code) := by
  have hpair : s.drawIntermediates 8 4 = (true, s.afterDraw.afterDraw) :=
    Prod.ext hd (State.drawIntermediates_snd_of_both hd)
  rw [syndromeOf, if_pos hmiss, hpair]
  rfl

theorem syndromeOf_of_biased {syn : Nibble} (hslot : s.block.decRead code = biased syn) :
    syndromeOf H code s = (some syn, s) := by
  rw [syndromeOf, if_neg (hslot ▸ biased_ne_zero syn), hslot, unbiased_biased]

end

/-! ### The response an entry of the table gives (R123, R125) -/

/-- A command that answers with an entry's response answers as R123 lists it. -/
theorem Answered.by_entry {s t : State} {entry : Correction} {code : Byte}
    (h : Answered s t (correct entry code).status (correct entry code).val) :
    (entry = .ok → Answered s t .ok (some ((code &&& 0xF).setWidth 32))) ∧
    (entry = .err → Answered s t .uncorrectable none) ∧
    (∀ p, entry = .pos p → p.val ≤ 3 →
      Answered s t .corrected (some (((code ^^^ (1#8 <<< p.val)) &&& 0xF).setWidth 32))) ∧
    (∀ p, entry = .pos p → 4 ≤ p.val → Answered s t .corrected (some ((code &&& 0xF).setWidth 32))) := by
  refine ⟨?_, ?_, fun p hentry hp => ?_, fun p hentry hp => ?_⟩
  · rintro rfl
    exact h
  · rintro rfl
    exact h
  · subst hentry
    rw [correct, if_pos hp] at h
    exact h
  · subst hentry
    rw [correct, if_neg (by omega)] at h
    exact h

end Sys2Proof.Machine

open Sys2Proof Sys2Proof.Machine

/-- Settles O50, by the closed form of the one-row product, then by the branches of `syndrome_of`. -/
theorem syndromeIsComputedOrRecovered : Obligations.SyndromeIsComputedOrRecovered := by
  refine ⟨fun H code _ hcols => ⟨setWidth_syndromeWith hcols code, ?_⟩, fun H code s => ⟨fun hmiss hd => ?_,
    fun hmiss hd => ?_, fun syn hslot => syndromeOf_of_biased H (eq_biased_of_toNat hslot)⟩⟩
  · rw [setWidth_syndromeWith hcols]
    exact firstByte_gf2Product_fromData H code
  · rw [syndromeOf_of_refused H hmiss hd]
    exact ⟨rfl, s.drawIntermediates_block 8 4⟩
  · rw [syndromeOf_of_granted H hmiss hd]
    exact ⟨rfl, s.decRead_syndromeStored_toNat H code, fun k hk => Block.decRead_decWrite_other _ hk _, rfl, rfl, rfl⟩

/-- Settles O51, by the checks in their order, then by how the syndrome is had: not at all, computed, or recovered. -/
theorem hamDecodeAnswersByTheTable : Obligations.HamDecodeAnswersByTheTable := by
  refine ⟨fun h b c => ?_, fun h code s => ⟨raises_handle_of_deadMat (List.mem_singleton_self h), fun H hH =>
    ⟨raises_shape_hamDecode hH, fun hrows hcols => ⟨fun hmiss hd => ?_, fun syn hsyn => ?_⟩⟩⟩⟩
  · rw [← lowByte_eq_setWidth]
    exact decode_toWord _
  · obtain ⟨honce, htwice⟩ := s.drawIntermediates_draws 8 4
    exact ⟨_, exec_hamDecode_of_noSyndrome hH ⟨hrows, hcols⟩ (syndromeOf_of_refused H hmiss hd),
      .raise (s.drawIntermediates_pending 8 4) (s.drawIntermediates_responses 8 4) _, s.drawIntermediates_block 8 4,
      honce, htwice⟩
  · rcases hsyn with ⟨hmiss, hd, rfl⟩ | hslot
    · refine ⟨_, exec_hamDecode_of_syndrome hH ⟨hrows, hcols⟩ (syndromeOf_of_granted H hmiss hd), ?_⟩
      obtain ⟨hok, herr, hlow, hhigh⟩ := Answered.by_entry (s := s)
        (t := (s.syndromeStored H code).respond _ _) ⟨rfl, rfl⟩
      exact ⟨hok, herr, hlow, hhigh, rfl, rfl, rfl, fun k hk => Block.decRead_decWrite_other _ hk _,
        fun hhit => absurd hmiss hhit, fun _ => ⟨s.decRead_syndromeStored_toNat H code, rfl, rfl⟩⟩
    · have hfull := eq_biased_of_toNat hslot
      have hhit : s.block.decRead code ≠ 0 := hfull ▸ biased_ne_zero syn
      refine ⟨_, exec_hamDecode_of_syndrome hH ⟨hrows, hcols⟩ (syndromeOf_of_biased H hfull), ?_⟩
      obtain ⟨hok, herr, hlow, hhigh⟩ := Answered.by_entry (s := s) (t := s.respond _ _) ⟨rfl, rfl⟩
      exact ⟨hok, herr, hlow, hhigh, rfl, rfl, rfl, fun _ _ => rfl, fun _ => ⟨rfl, rfl, rfl⟩,
        fun hmiss => absurd hmiss hhit⟩

end

section
/-! SUPPORT. A decode under a cache that agrees with its matrix; the syndromes of `HT_REF`, whose kernel is the code of `G_REF`
and which tell the parity of a byte's weight; with them the statements about the correction table and the error patterns
(spec/44_hamming_decoder.md R121, R122, R129; spec/70_reset_and_hazards.md R165). -/

namespace Sys2Proof.Machine

/-! ### A decode under a cache that agrees (R124, R165) -/

/-- The decode cache goes on agreeing with a matrix through every command but a `HAM_DECODE` given another one (R165). -/
theorem Effect.decAgrees {i : Instr} {b b' : Block} {r : Response} {M : MatRec} (he : Effect i b b' r)
    (hM : ∀ h code, i = .hamDecode h code → b.matOf h = some M) (hagree : b.decAgrees M) : b'.decAgrees M := by
  intro k hk
  rcases he.decRead_cases k with hsame | ⟨-, h, H, hi, hH, hfilled⟩
  · rw [hsame] at hk ⊢
    exact hagree k hk
  · cases hH.symm.trans (hM h k hi)
    exact hfilled

/-- Under a cache that agrees, `syndrome_of` gives the computed syndrome on a hit as on a miss. -/
theorem syndromeOf_of_decAgrees {H : MatRec} {code : Byte} {s : State} (hagree : s.block.decAgrees H)
    (hgo : s.block.decRead code ≠ 0 ∨ (s.drawIntermediates 8 4).1 = true) :
    ∃ u, syndromeOf H code s = (some (syndromeWith H code), u) ∧ u.pending = s.pending ∧ u.responses = s.responses := by
  by_cases hmiss : s.block.decRead code = 0
  · exact ⟨_, syndromeOf_of_granted H hmiss (hgo.resolve_left (not_not_intro hmiss)), rfl, rfl⟩
  · exact ⟨s, syndromeOf_of_biased H (hagree code hmiss), rfl, rfl⟩

/-- Under a cache that agrees, `HAM_DECODE` answers by the computed syndrome, and the cache goes on agreeing. -/
theorem exec_hamDecode_of_decAgrees {h : Handle} {code : Byte} {s : State} {H : MatRec} (hH : s.block.matOf h = some H)
    (hpar : H.isParityCheck) (hagree : s.block.decAgrees H)
    (hgo : s.block.decRead code ≠ 0 ∨ (s.drawIntermediates 8 4).1 = true) :
    ∃ t, exec (.hamDecode h code) s = .next t ∧ t.block.decAgrees H ∧
      Answered s t (correct (correctionTable (syndromeWith H code)) code).status
        (correct (correctionTable (syndromeWith H code)) code).val := by
  obtain ⟨u, hu, hpending, hresponses⟩ := syndromeOf_of_decAgrees hagree hgo
  have ht := exec_hamDecode_of_syndrome hH hpar hu
  obtain ⟨-, r, -, he⟩ := exec_answers ht
  refine ⟨_, ht, he.decAgrees (fun h' code' hi => ?_) hagree, by rw [State.respond_responses, hresponses], hpending⟩
  cases hi
  exact hH

/-! ### The correction table and the rows of `HT_REF` (R121, R122) -/

/-- The row of `HT_REF` that bit `p` of a byte selects: the syndrome of a single error at `p`. -/
def htRow (p : Fin 8) : Nibble := (htRef.rowByte p.val).setWidth 4

theorem correctionTable_eq_ok_iff (s : Nibble) : correctionTable s = .ok ↔ s = 0 := by
  revert s
  decide

theorem correctionTable_eq_pos_iff (s : Nibble) (p : Fin 8) : correctionTable s = .pos p ↔ s = htRow p := by
  revert s p
  decide

/-- `ERR` stands at the syndromes that no other entry claims. -/
theorem correctionTable_eq_err_iff (s : Nibble) : correctionTable s = .err ↔ s ≠ 0 ∧ ∀ p, htRow p ≠ s := by
  refine ⟨fun herr => ⟨?_, ?_⟩, fun ⟨h0, hrow⟩ => ?_⟩
  · rintro rfl
    cases herr
  · rintro p rfl
    cases herr.symm.trans ((correctionTable_eq_pos_iff _ p).mpr rfl)
  · cases hs : correctionTable s with
    | ok => exact absurd ((correctionTable_eq_ok_iff s).mp hs) h0
    | err => rfl
    | pos p => exact absurd ((correctionTable_eq_pos_iff s p).mp hs).symm (hrow p)

/-! ### Syndromes under `HT_REF` (R103, R124) -/

theorem syndromeWith_xor (H : MatRec) (x y : Byte) :
    syndromeWith H (x ^^^ y) = syndromeWith H x ^^^ syndromeWith H y := by
  simp only [syndromeWith_eq_xorRows, xorRows_xor, BitVec.setWidth_xor]

theorem syndromeWith_refCodeword (n : Nibble) : syndromeWith htRef (refCodeword n) = 0 := by
  rw [syndromeWith_eq_xorRows]
  revert n
  decide

theorem syndromeWith_refCodeword_xor (n : Nibble) (e : Byte) :
    syndromeWith htRef (refCodeword n ^^^ e) = syndromeWith htRef e := by
  rw [syndromeWith_xor, syndromeWith_refCodeword]
  exact BitVec.zero_xor

theorem syndromeWith_bit (p : Fin 8) : syndromeWith htRef (1#8 <<< p.val) = htRow p := by
  rw [syndromeWith_eq_xorRows]
  revert p
  decide

/-- The byte whose low nibble is 0 and whose high nibble is `f`. -/
def highByte (f : Nibble) : Byte := f.setWidth 8 <<< 4

/-- The last four rows of `HT_REF` are the unit rows. -/
theorem syndromeWith_highByte (f : Nibble) : syndromeWith htRef (highByte f) = f := by
  rw [syndromeWith_eq_xorRows]
  revert f
  decide

theorem eq_highByte_of_low_zero {x : Byte} (h : x.setWidth 4 = (0 : Nibble)) : x = highByte (x.extractLsb' 4 4) := by
  have hlow : x.toNat % 16 = 0 := congrArg BitVec.toNat h
  refine BitVec.eq_of_toNat_eq ?_
  simp only [highByte, BitVec.toNat_shiftLeft, BitVec.toNat_setWidth, BitVec.extractLsb'_toNat, Nat.shiftLeft_eq,
    Nat.shiftRight_eq_div_pow]
  omega

/-- A byte is the codeword of its low nibble with its own syndrome added to the high nibble. -/
theorem eq_refCodeword_xor_highByte (e : Byte) :
    e = refCodeword (e.setWidth 4) ^^^ highByte (syndromeWith htRef e) := by
  have hlow : (refCodeword (e.setWidth 4) ^^^ e).setWidth 4 = (0 : Nibble) := by
    rw [BitVec.setWidth_xor, refCodeword_setWidth]
    exact BitVec.xor_self
  have hhigh := eq_highByte_of_low_zero hlow
  rw [← syndromeWith_refCodeword_xor (e.setWidth 4), hhigh, syndromeWith_highByte, ← hhigh, ← BitVec.xor_assoc,
    BitVec.xor_self, BitVec.zero_xor]

/-- A byte with syndrome 0 is a codeword. -/
theorem eq_refCodeword_of_syndrome_zero {e : Byte} (h : syndromeWith htRef e = 0) : e = refCodeword (e.setWidth 4) := by
  have hsplit := eq_refCodeword_xor_highByte e
  rw [h] at hsplit
  exact hsplit.trans BitVec.xor_zero

/-- A byte with the syndrome of a single error is one bit away from a codeword. -/
theorem exists_refCodeword_xor_bit {e : Byte} {p : Fin 8} (h : syndromeWith htRef e = htRow p) :
    ∃ n, e = refCodeword n ^^^ 1#8 <<< p.val := by
  have hsyn : syndromeWith htRef (e ^^^ 1#8 <<< p.val) = 0 := by
    rw [syndromeWith_xor, h, syndromeWith_bit]
    exact BitVec.xor_self
  refine ⟨(e ^^^ 1#8 <<< p.val).setWidth 4, ?_⟩
  rw [← eq_refCodeword_of_syndrome_zero hsyn, BitVec.xor_assoc, BitVec.xor_self, BitVec.xor_zero]

/-! ### Weights (R129) -/

theorem eq_zero_of_weight {e : Byte} (h : weight e = 0) : e = 0 :=
  BitVec.eq_of_getLsbD_eq fun k hk => by
    simpa using List.countP_eq_zero.mp h k (List.mem_range.mpr hk)

theorem eq_allOnes_of_weight {e : Byte} (h : weight e = 8) : e = BitVec.allOnes 8 :=
  BitVec.eq_of_getLsbD_eq fun k hk => by
    rw [BitVec.getLsbD_allOnes, decide_eq_true hk]
    exact List.countP_eq_length.mp h k (List.mem_range.mpr hk)

/-- The parity of the weight is the exclusive-or of the bits. -/
theorem weight_mod_two (e : Byte) : weight e % 2 = (xorUpTo 8 fun k => e.getLsbD k).toNat := by
  have hodd : xorUpTo 8 (fun k => e.getLsbD k) = true ↔ weight e % 2 = 1 := xorUpTo_eq_true_iff 8 _
  cases hx : xorUpTo 8 fun k => e.getLsbD k with
  | true => exact hodd.mp hx
  | false => exact (Nat.mod_two_eq_zero_or_one _).resolve_right fun h1 => Bool.noConfusion (hx.symm.trans (hodd.mpr h1))

theorem weight_xor_mod_two (x y : Byte) : weight (x ^^^ y) % 2 = (weight x + weight y) % 2 := by
  rw [Nat.add_mod, weight_mod_two, weight_mod_two, weight_mod_two]
  simp only [BitVec.getLsbD_xor, xorUpTo_xor]
  cases xorUpTo 8 (fun k => x.getLsbD k) <;> cases xorUpTo 8 (fun k => y.getLsbD k) <;> rfl

theorem weight_refCodeword_zero : weight (refCodeword 0) = 0 := by decide

/-- The weights of the code are 0, 4 and 8. -/
theorem weight_refCodeword_mod_four (n : Nibble) : weight (refCodeword n) % 4 = 0 := by
  revert n
  decide

/-- One bit away from a codeword the weight is 1 exactly when the codeword is 0. -/
theorem weight_refCodeword_xor_bit (n : Nibble) (p : Fin 8) : weight (refCodeword n ^^^ 1#8 <<< p.val) = 1 ↔ n = 0 := by
  revert n p
  decide

/-- A byte and its syndrome have weights of one parity. -/
theorem weight_mod_two_eq_syndrome (e : Byte) : weight e % 2 = weight (highByte (syndromeWith htRef e)) % 2 := by
  have hsplit := congrArg (fun x => weight x % 2) (eq_refCodeword_xor_highByte e)
  have hcode := weight_refCodeword_mod_four (e.setWidth 4)
  simp only [weight_xor_mod_two (refCodeword _)] at hsplit
  omega

theorem correctionTable_of_odd {s : Nibble} (h : weight (highByte s) % 2 = 1) : ∃ p, correctionTable s = .pos p := by
  revert s
  decide

theorem correctionTable_of_even {s : Nibble} (h : weight (highByte s) % 2 = 0) (h0 : s ≠ 0) : correctionTable s = .err := by
  revert s
  decide

/-! ### The response to a received byte (R122, R123, R129) -/

/-- The response a received byte gets from its computed syndrome under `HT_REF`. -/
def refResponse (code : Byte) : Response := correct (correctionTable (syndromeWith htRef code)) code

theorem valOfByte_low_nibble (x : Byte) : valOfByte (x &&& 0xF) = (x.setWidth 4 : Nibble).setWidth 32 := by
  have hmask : (x &&& 0xF).toNat = x.toNat % 2 ^ 4 := Nat.and_two_pow_sub_one_eq_mod x.toNat 4
  refine BitVec.eq_of_toNat_eq ?_
  simp only [valOfByte, BitVec.truncate_eq_setWidth, BitVec.toNat_setWidth, hmask]

theorem refCodeword_xor (m n : Nibble) : refCodeword m ^^^ refCodeword n = refCodeword (m ^^^ n) := by
  simp only [← encodeWith_gRef, encodeWith_xor]

theorem refResponse_refCodeword (c : Nibble) : refResponse (refCodeword c) = ⟨.ok, some (c.setWidth 32)⟩ := by
  have hentry : correctionTable (syndromeWith htRef (refCodeword c)) = .ok :=
    (correctionTable_eq_ok_iff _).mpr (syndromeWith_refCodeword c)
  rw [refResponse, hentry, correct, valOfByte_low_nibble, refCodeword_setWidth]

/-- Bits 4 to 7 carry no message bit. -/
theorem bit_setWidth_of_four_le {p : Fin 8} (hp : ¬ p.val ≤ 3) : (1#8 <<< p.val).setWidth 4 = (0 : Nibble) := by
  revert p
  decide

/-- A single error is corrected to the message of the codeword, whether it hits a message bit or a check bit. -/
theorem refResponse_refCodeword_xor_bit (c : Nibble) (p : Fin 8) :
    refResponse (refCodeword c ^^^ 1#8 <<< p.val) = ⟨.corrected, some (c.setWidth 32)⟩ := by
  have hentry : correctionTable (syndromeWith htRef (refCodeword c ^^^ 1#8 <<< p.val)) = .pos p := by
    rw [syndromeWith_refCodeword_xor, syndromeWith_bit]
    exact (correctionTable_eq_pos_iff _ p).mpr rfl
  rw [refResponse, hentry, correct, valOfByte_low_nibble, valOfByte_low_nibble]
  by_cases hp : p.val ≤ 3
  · rw [if_pos hp, BitVec.xor_assoc, BitVec.xor_self, BitVec.xor_zero, refCodeword_setWidth]
  · rw [if_neg hp, BitVec.setWidth_xor, refCodeword_setWidth, bit_setWidth_of_four_le hp,
      show c ^^^ 0 = c from BitVec.xor_zero]

/-- A pattern of odd weight is taken for a single error, added to a codeword that is 0 for weight 1 only. -/
theorem refResponse_of_odd (m : Nibble) {e : Byte} (hodd : weight e % 2 = 1) :
    ∃ n, (weight e = 1 ↔ n = 0) ∧
      refResponse (refCodeword m ^^^ e) = ⟨.corrected, some ((m ^^^ n).setWidth 32)⟩ := by
  obtain ⟨p, hp⟩ := correctionTable_of_odd (s := syndromeWith htRef e) (by rwa [← weight_mod_two_eq_syndrome])
  obtain ⟨n, rfl⟩ := exists_refCodeword_xor_bit ((correctionTable_eq_pos_iff _ p).mp hp)
  refine ⟨n, weight_refCodeword_xor_bit n p, ?_⟩
  rw [← BitVec.xor_assoc, refCodeword_xor, refResponse_refCodeword_xor_bit]

/-- A pattern of even weight that is no codeword is detected. -/
theorem refResponse_of_even (m : Nibble) {e : Byte} (heven : weight e % 2 = 0) (hcode : ∀ n, refCodeword n ≠ e) :
    refResponse (refCodeword m ^^^ e) = ⟨.uncorrectable, none⟩ := by
  have h0 : syndromeWith htRef e ≠ 0 := fun h => hcode _ (eq_refCodeword_of_syndrome_zero h).symm
  have hentry := correctionTable_of_even (by rwa [← weight_mod_two_eq_syndrome]) h0
  rw [refResponse, syndromeWith_refCodeword_xor, hentry, correct]

/-- A pattern that is a codeword turns one codeword into another and is not seen. -/
theorem refResponse_of_codeword (m n : Nibble) :
    refResponse (refCodeword m ^^^ refCodeword n) = ⟨.ok, some ((m ^^^ n).setWidth 32)⟩ := by
  rw [refCodeword_xor, refResponse_refCodeword]

theorem xor_ne_self {m n : Nibble} (hn : n ≠ 0) : m ^^^ n ≠ m := by
  simpa using hn

end Sys2Proof.Machine

open Sys2Proof Sys2Proof.Machine

/-- Settles O49, by the syndromes at which each kind of entry stands. -/
theorem correctionTableFollowsFromHtRef : Obligations.CorrectionTableFollowsFromHtRef :=
  ⟨rfl, fun p => (correctionTable_eq_pos_iff _ p).mpr rfl, correctionTable_eq_err_iff, by decide⟩

/-- Settles O52: a codeword pattern is not seen, any other one is detected when its weight is even and taken for a single
error when it is odd; the weights of the code are 0, 4 and 8. -/
theorem errorPatternsAnswerByWeight : Obligations.ErrorPatternsAnswerByWeight := by
  intro h m e s hH hagree hgo
  obtain ⟨t, ht, hagree', hans⟩ := exec_hamDecode_of_decAgrees hH ⟨rfl, rfl⟩ hagree hgo
  simp only [encodeWith_gRef] at ht hans ⊢
  have answers {r : Response} (hr : refResponse (refCodeword m ^^^ e) = r) : Answered s t r.status r.val := hr ▸ hans
  refine ⟨t, ht, hagree', fun hw => ?_, fun hw => ?_, fun hw => answers (refResponse_of_even m (by omega) fun n hn => ?_),
    fun hw => ?_, fun hw ⟨n, hn⟩ => ?_, fun hw hcode => answers (refResponse_of_even m (by omega) (not_exists.mp hcode)),
    fun hw => ?_⟩
  · cases eq_zero_of_weight hw
    exact answers ((congrArg refResponse BitVec.xor_zero).trans (refResponse_refCodeword m))
  · obtain ⟨n, hn, hr⟩ := refResponse_of_odd m (e := e) (by omega)
    rw [hn.mp hw, show m ^^^ 0 = m from BitVec.xor_zero] at hr
    exact answers hr
  · subst hn
    have hcode := weight_refCodeword_mod_four n
    omega
  · obtain ⟨n, hn, hr⟩ := refResponse_of_odd m (e := e) (by omega)
    have hn0 : n ≠ 0 := fun h0 => absurd (hn.mpr h0) (by omega)
    exact ⟨m ^^^ n, xor_ne_self hn0, answers hr⟩
  · subst hn
    have hn0 : n ≠ 0 := by
      rintro rfl
      cases weight_refCodeword_zero.symm.trans hw
    rw [refCodeword_setWidth]
    exact ⟨xor_ne_self hn0, answers (refResponse_of_codeword m n)⟩
  · cases eq_allOnes_of_weight hw
    exact answers (refResponse_of_codeword m 15)

end

section
/-! SUPPORT. The numbers of the statuses and the responses a command can give; with them the statements about errors and
statuses (spec/60_exceptions.md R140 to R142). -/

namespace Sys2Proof.Machine

/-! ### The status numbers (R141) -/

/-- The status a number stands for, `none` for the numbers that never occur (R141, read from right to left). -/
def Status.ofCode (x : BitVec 8) : Option Status :=
  match x.toNat with
  | 0 => some .ok
  | 1 => some .corrected
  | 2 => some .uncorrectable
  | 3 => some (.error .alloc)
  | 4 => some (.error .range)
  | 5 => some (.error .handle)
  | 6 => some (.error .shape)
  | 7 => some (.error .illegal)
  | _ => none

/-- A status is read back from its number. -/
theorem Status.ofCode_code (st : Status) : Status.ofCode st.code = some st := by
  cases st with
  | ok | corrected | uncorrectable => rfl
  | error e => cases e <;> rfl

theorem Status.code_injective {st st' : Status} (h : st.code = st'.code) : st = st' :=
  Option.some.inj <| calc some st = Status.ofCode st.code := st.ofCode_code.symm
    _ = Status.ofCode st'.code := by rw [h]
    _ = some st' := st'.ofCode_code

theorem Status.code_lt (st : Status) : st.code.toNat < 8 := by
  cases st with
  | ok | corrected | uncorrectable => decide
  | error e => cases e <;> decide

/-- The response word of an error is its number, with 0 in every other bit (R62, R142). -/
theorem Response.toWord_error (e : ErrorKind) : Response.toWord ⟨.error e, none⟩ = (0 : BitVec 56) ++ e.code := by
  have hzero : (0 : BitVec 32) ++ (0 : BitVec 24) = (0 : BitVec 56) := by decide
  rw [← hzero]
  rfl

/-! ### The responses of a command (R63, R126, R141) -/

/-- The three kinds of response the correction table gives (R123). -/
theorem correct_cases (entry : Correction) (code : Byte) :
    (∃ x, correct entry code = ⟨.ok, some x⟩) ∨ correct entry code = ⟨.uncorrectable, none⟩ ∨
    ∃ x, correct entry code = ⟨.corrected, some x⟩ := by
  cases entry with
  | ok => exact .inl ⟨_, rfl⟩
  | err => exact .inr (.inl rfl)
  | pos p =>
    refine .inr (.inr ?_)
    unfold correct
    dsimp only
    split <;> exact ⟨_, rfl⟩

/-- The kinds of response a command can give: an error, with no change and no value; `OK`, with a value as the command's row
says; and from `HAM_DECODE` also `UNCORRECTABLE` without a value and `CORRECTED` with one. -/
theorem Effect.response_cases {i : Instr} {b b' : Block} {r : Response} (he : Effect i b b' r) :
    (∃ e, r = ⟨.error e, none⟩ ∧ e ≠ .illegal ∧ b' = b) ∨
    (∃ v, r = ⟨.ok, v⟩ ∧ v.isSome = i.hasResult) ∨
    (∃ h c, i = .hamDecode h c) ∧ (r = ⟨.uncorrectable, none⟩ ∨ ∃ x, r = ⟨.corrected, some x⟩) := by
  cases he with
  | error e hill => exact .inl ⟨e, rfl, hill, rfl⟩
  | read x hres | newMat _ _ _ hres => exact .inr (.inl ⟨_, rfl, hres.symm⟩)
  | newVec _ _ hi | delVec _ hi | setVecBit _ _ _ hi | setVecByte _ _ _ _ hi | delMat _ hi | setMatBit _ _ _ _ hi
  | encWrite _ _ _ hi => exact .inr (.inl ⟨_, rfl, hi ▸ rfl⟩)
  | decoded h k _ hi | decWrite h _ k hi =>
    subst hi
    exact .inr ((correct_cases _ k).imp (fun ⟨x, hx⟩ => ⟨some x, hx, rfl⟩) fun hother => ⟨⟨h, k, rfl⟩, hother⟩)

/-- A command that answers an error answers no value and leaves the block as it was (R142). -/
theorem Effect.of_error {i : Instr} {b b' : Block} {r : Response} {e : ErrorKind} (he : Effect i b b' r)
    (hst : r.status = .error e) : r = ⟨.error e, none⟩ ∧ b' = b := by
  rcases he.response_cases with ⟨e', rfl, -, hb⟩ | ⟨v, rfl, -⟩ | ⟨-, rfl | ⟨x, rfl⟩⟩ <;> cases hst
  exact ⟨rfl, hb⟩

/-- Everything a step that takes a command word can do: `E_ILLEGAL` for a word that is no command, with the block as it was,
or the response and the effect of the command (R6, R64). -/
theorem step_command_cases {s t : State} {w : CmdWord} {rest : List PortEvent} (hp : s.pending = .command w :: rest)
    (ht : step s = .next t) :
    t.pending = rest ∧ ∃ r, t.responses = s.responses ++ [r] ∧
      ((r = ⟨.error .illegal, none⟩ ∧ t.block = s.block) ∨ ∃ i, decode w = .ok i ∧ Effect i s.block t.block r) := by
  cases hd : decode w with
  | ok i =>
    obtain ⟨hpending, r, hr, he⟩ := exec_answers ((step_of_decode_ok hp hd).symm.trans ht)
    exact ⟨hpending, r, hr, .inr ⟨i, rfl, he⟩⟩
  | error =>
    cases (step_of_decode_error hp hd).symm.trans ht
    exact ⟨rfl, _, rfl, .inl ⟨rfl, rfl⟩⟩

end Sys2Proof.Machine

open Sys2Proof Sys2Proof.Machine

/-- Settles O7, by the kind of response the command's effect goes with. -/
theorem responsesCarryValuesAsTheTableSays : Obligations.ResponsesCarryValuesAsTheTableSays := by
  intro i s t ht
  obtain ⟨-, r, hr, he⟩ := exec_answers ht
  refine ⟨r, hr, ?_⟩
  rcases he.response_cases with ⟨e, rfl, hill, -⟩ | ⟨v, rfl, hv⟩ | ⟨hi, rfl | ⟨x, rfl⟩⟩
  · simp [hill]
  · simp [hv]
  · simp [hi]
  · simp [hi]

/-- Settles O15, by whether the word is a command: an illegal word changes nothing, and neither does a command that answers
an error. -/
theorem errorsChangeNoState : Obligations.ErrorsChangeNoState := by
  intro s t w rest r e hp ht hr hst
  obtain ⟨hpending, r', hr', hcases⟩ := step_command_cases hp ht
  have hrr : r' = r := by simpa using hr'.symm.trans hr
  subst hrr
  have herror : r' = ⟨.error e, none⟩ ∧ t.block = s.block := by
    rcases hcases with ⟨rfl, hb⟩ | ⟨i, -, he⟩
    · cases hst
      exact ⟨rfl, hb⟩
    · exact he.of_error hst
  obtain ⟨rfl, hb⟩ := herror
  exact ⟨hb, hpending, rfl, Response.toWord_error e⟩

/-- Settles O6: the table's numbers by evaluation, and a status is read back from its number. -/
theorem statusNumbersAreTheTable : Obligations.StatusNumbersAreTheTable :=
  ⟨rfl, rfl, rfl, rfl, rfl, rfl, rfl, rfl, Status.code_lt, fun _ _ => Status.code_injective⟩

end

section
/-! SUPPORT. What a step that is no reset can do to the block, and that a command leaves full cache entries full; with them
the statements about reset, waiting and the caches' agreement (spec/70_reset_and_hazards.md R160, R161, R165). -/

namespace Sys2Proof.Machine

/-- A command leaves a full `ENC_CACHE` entry as it is (R28, R113). -/
theorem Effect.encRead_of_full {i : Instr} {b b' : Block} {r : Response} (he : Effect i b b' r) {n : Nibble}
    (hfull : b.encRead n ≠ 0) : b'.encRead n = b.encRead n :=
  (he.encRead_cases n).resolve_right fun ⟨_, hempty, _⟩ => hfull hempty

/-- A command leaves a full `DEC_CACHE` entry as it is (R29, R124). -/
theorem Effect.decRead_of_full {i : Instr} {b b' : Block} {r : Response} (he : Effect i b b' r) {k : Byte}
    (hfull : b.decRead k ≠ 0) : b'.decRead k = b.decRead k :=
  (he.decRead_cases k).resolve_right fun ⟨hempty, _⟩ => hfull hempty

/-- A step that is no reset keeps the block or changes it as a command does: `step_block_cases` without its reset case. -/
theorem step_block_cases_of_no_reset {s t : State} (h : step s = .next t) (hreset : ∀ rest, s.pending ≠ .reset :: rest)
    (hduring : ∀ w rest, s.pending ≠ .resetDuring w :: rest) :
    t.block = s.block ∨ ∃ i r, Effect i s.block t.block r := by
  cases hp : s.pending with
  | nil =>
    cases (step_of_pending_nil hp).symm.trans h
    exact .inl rfl
  | cons e rest =>
    cases e with
    | reset => exact absurd hp (hreset rest)
    | resetDuring w => exact absurd hp (hduring w rest)
    | command w =>
      obtain ⟨-, r, -, ⟨-, hb⟩ | ⟨i, -, he⟩⟩ := step_command_cases hp h
      · exact .inl hb
      · exact .inr ⟨i, r, he⟩

end Sys2Proof.Machine

open Sys2Proof Sys2Proof.Machine

/-- Settles O11: either reset leaves the reset block; any other step keeps the block or is a command, which leaves full entries
as they are. -/
theorem resetEmptiesPoolsAndCaches : Obligations.ResetEmptiesPoolsAndCaches := by
  refine ⟨fun s w rest hp => ?_, fun s t h hreset hduring => ?_⟩
  · have hstep : step s = .next (s.taking rest).applyReset := hp.elim step_of_reset step_of_resetDuring
    exact ⟨_, hstep, Block.reset_vecOf, Block.reset_matOf, Block.reset_encRead, Block.reset_decRead, rfl, rfl, rfl⟩
  · rcases step_block_cases_of_no_reset h hreset hduring with hb | ⟨i, r, he⟩
    · rw [hb]
      exact ⟨fun _ hfull => hfull, fun _ hfull => hfull⟩
    · exact ⟨fun n hfull => (he.encRead_of_full hfull).trans_ne hfull,
        fun k hfull => (he.decRead_of_full hfull).trans_ne hfull⟩

/-- Settles O46: the effect of a command keeps either agreement. -/
theorem cachesGoOnAgreeing : Obligations.CachesGoOnAgreeing := by
  intro M i s t ht
  obtain ⟨-, r, -, he⟩ := exec_answers ht
  exact ⟨fun hagree hM => he.encAgrees hM hagree, fun hagree hM => he.decAgrees hM hagree⟩

/-- Settles O10: the step's equation for an empty port. -/
theorem idleBlockWaits : Obligations.IdleBlockWaits := fun _ hp => step_of_pending_nil hp

end
